-- ==== Sys2Proof/Word.lean ====
section
/-! DEFINITION. The word types of BXARB (00_scope.md R15, 20_memory.md R62). -/

namespace Sys2Proof

/-- A 32-bit word: the width of the host port and of an IdReg (R7, R62). -/
abbrev Word := BitVec 32

/-- One payload byte (R83). -/
abbrev Byte := BitVec 8

end Sys2Proof
end

