-- ==== Sys2Proof/Syntax.lean ====
section
/-! DEFINITION. What the outside of BXARB can say to it: the twelve commands and two bus events of the opcode
table (30_encoding.md R84 to R87), and the accesses of the host port (20_memory.md R60 to R66). -/

namespace Sys2Proof

/-- A transmit mailbox slot. There are exactly three (00_scope.md R7). -/
inductive Slot where
  | s0 | s1 | s2
  deriving DecidableEq, Repr

/-- The frame register a constructor command selects by bit 4 of its word (R84): 0 is `FA`, 1 is `FB`. -/
inductive FSel where
  | fa | fb
  deriving DecidableEq, Repr

/-- One constructor per row of the opcode table (R85, R87). Operands stand in registers (R89); the only operand
in a word is the frame register select of `MKDATA` and `MKRMT`. -/
inductive Instr where
  /-- `NOP`, R162 -/
  | nop
  /-- `MKSTD`, R112 -/
  | mkstd
  /-- `MKEXT`, R113 -/
  | mkext
  /-- `SETRTR`, R114 -/
  | setrtr
  /-- `DECID`, R115 -/
  | decid
  /-- `CMP`, R117 -/
  | cmp
  /-- `MKDATA.A` and `MKDATA.B`, R132 -/
  | mkdata (f : FSel)
  /-- `MKRMT.A` and `MKRMT.B`, R133 -/
  | mkrmt (f : FSel)
  /-- `FEQ`, R136 -/
  | feq
  /-- `FCMP`, R137 -/
  | fcmp
  /-- `TX`, first phase, R151 -/
  | tx
  /-- `IDLE`, R161 -/
  | idle
  /-- `BSTART`, R165 -/
  | bstart
  /-- `BDONE`, R166 -/
  | bdone
  deriving DecidableEq, Repr

/-- An encoded instruction: a command is a 32-bit word written to `CMD` (R84), a bus event a one-bit word raised
by the bus engine (R87). -/
inductive FetchWord where
  | cmd (w : Word)
  | busEvent (e : BitVec 1)
  deriving DecidableEq, Repr

/-- The size of a host access (10_state.md R44). -/
inductive Size where
  | byte | half | word
  deriving DecidableEq, Repr

/-- An access of the host port: its byte offset, its size and, for a write, the data (R44, R60). -/
inductive Access where
  | read (off : BitVec 8) (size : Size)
  | write (off : BitVec 8) (size : Size) (v : Word)
  deriving DecidableEq, Repr

/-- The four fields of a frame register (30_encoding.md R83). -/
inductive Field where
  | id | dlc | dl | dh
  deriving DecidableEq, Repr

/-- The registers of the register map (20_memory.md R61). -/
inductive Reg where
  | cmd | rstat | res | status | opa | opb
  | fa (f : Field) | fb (f : Field) | ev (f : Field)
  | mb (i : Slot) (f : Field)
  deriving DecidableEq, Repr

end Sys2Proof
end

