-- ==== Sys2Proof/WellFormed.lean ====
section
/-! DEFINITION. The form of what is said to BXARB. An instruction has no ill-formed term: its one operand, the
frame register select, is a typed choice of two. What can be ill-formed is a host access: it must be 32 bits wide
(20_memory.md R62) and aligned (R63). -/

namespace Sys2Proof

/-- Every instruction is well formed: no operand has a value its word cannot carry (30_encoding.md R84, R89). -/
def Instr.wellFormed : Instr → Bool
  | .nop | .mkstd | .mkext | .setrtr | .decid | .cmp | .mkdata _ | .mkrmt _
  | .feq | .fcmp | .tx | .idle | .bstart | .bdone => true

def Access.off : Access → BitVec 8
  | .read off _ | .write off _ _ => off

def Access.size : Access → Size
  | .read _ size | .write _ size _ => size

/-- The access is 32 bits wide (R62). -/
def Access.fullWidth (a : Access) : Bool := a.size == .word

/-- Bits 1:0 of the offset are 0 (R63). -/
def Access.aligned (a : Access) : Bool := a.off.extractLsb' 0 2 == 0#2

/-- The two checks on an access that need no register map (R62, R63). -/
def Access.wellFormed (a : Access) : Bool := a.fullWidth && a.aligned

end Sys2Proof
end

