-- ==== Sys2Proof/Decode.lean ====
section
/-! DEFINITION. The decoder of command and bus-event words, total on every word and rejecting by name, and the
encoder (30_encoding.md R84 to R87). -/

namespace Sys2Proof

/-- Why a command word is illegal (R86). All three raise the one error `E_ILLCMD`. -/
inductive DecodeError where
  /-- One of bits 31:5 is set. -/
  | reservedBits
  /-- `OP` is one of `0xC` to `0xF`. -/
  | reservedOp
  /-- Bit 4 is set and `OP` is neither 6 nor 7. -/
  | straySelect
  deriving DecidableEq, Repr

/-- Bit 4 of a command word: 0 selects `FA`, 1 selects `FB` (R84). -/
def FSel.ofBit (b : BitVec 1) : FSel := if b = 0#1 then .fa else .fb

def FSel.bit : FSel → BitVec 1
  | .fa => 0#1
  | .fb => 1#1

/-- An operation whose bit 4 must be 0 (R84). -/
def plainOp (i : Instr) (f : BitVec 1) : Except DecodeError Instr :=
  if f = 0#1 then .ok i else .error .straySelect

/-- The table of operation codes (R85); `f` is bit 4 of the word. -/
def decodeOp (op : BitVec 4) (f : BitVec 1) : Except DecodeError Instr :=
  match op.toNat with
  | 0x0 => plainOp .nop f
  | 0x1 => plainOp .mkstd f
  | 0x2 => plainOp .mkext f
  | 0x3 => plainOp .setrtr f
  | 0x4 => plainOp .decid f
  | 0x5 => plainOp .cmp f
  | 0x6 => .ok (.mkdata (FSel.ofBit f))
  | 0x7 => .ok (.mkrmt (FSel.ofBit f))
  | 0x8 => plainOp .feq f
  | 0x9 => plainOp .fcmp f
  | 0xA => plainOp .tx f
  | 0xB => plainOp .idle f
  | _ => .error .reservedOp

/-- A command word: bits 31:5 are reserved and must be 0, bit 4 is `F`, bits 3:0 are `OP` (R84). -/
def decodeCommand (w : Word) : Except DecodeError Instr :=
  if w.extractLsb' 5 27 ≠ 0#27 then .error .reservedBits
  else decodeOp (w.extractLsb' 0 4) (w.extractLsb' 4 1)

/-- A bus-event word: 0 is `BSTART`, 1 is `BDONE` (R87). -/
def decodeBusEvent (e : BitVec 1) : Instr := if e = 0#1 then .bstart else .bdone

/-- The decoder, total on command words and bus-event words. -/
def decode : FetchWord → Except DecodeError Instr
  | .cmd w => decodeCommand w
  | .busEvent e => .ok (decodeBusEvent e)

/-- The command word with the given `F` and `OP` and its reserved bits 0 (R84). -/
def commandWord (op : BitVec 4) (f : BitVec 1) : Word := 0#27 ++ f ++ op

/-- The encoder (R85, R87). -/
def encode : Instr → FetchWord
  | .nop => .cmd (commandWord 0x0 0)
  | .mkstd => .cmd (commandWord 0x1 0)
  | .mkext => .cmd (commandWord 0x2 0)
  | .setrtr => .cmd (commandWord 0x3 0)
  | .decid => .cmd (commandWord 0x4 0)
  | .cmp => .cmd (commandWord 0x5 0)
  | .mkdata f => .cmd (commandWord 0x6 f.bit)
  | .mkrmt f => .cmd (commandWord 0x7 f.bit)
  | .feq => .cmd (commandWord 0x8 0)
  | .fcmp => .cmd (commandWord 0x9 0)
  | .tx => .cmd (commandWord 0xA 0)
  | .idle => .cmd (commandWord 0xB 0)
  | .bstart => .busEvent 0
  | .bdone => .busEvent 1

/-- DESIGN CHOICE (log entry 12): the table gives a command 32 bits and a bus event one; a table word of fewer
than 32 bits is read as a bus-event word, any other as a command word. -/
def fetchWordOf (nbits w : Nat) : Option FetchWord :=
  if nbits < 32 then
    if w < 2 then some (.busEvent (BitVec.ofNat 1 w)) else none
  else if w < 4294967296 then some (.cmd (BitVec.ofNat 32 w)) else none

/-- The instruction the decoder reads from a word of the opcode table. -/
def decodeTableWord (nbits w : Nat) : Option Instr :=
  match fetchWordOf nbits w with
  | none => none
  | some fw =>
    match decode fw with
    | .ok i => some i
    | .error _ => none

end Sys2Proof
end

