-- ==== Sys2Proof/Config.lean ====
section
/-! DEFINITION. The parameters of BXARB (00_scope.md R7, R8). The source fixes the widths and the ranges; the one
parameter the spec leaves OPEN is `FREE_PICK`. It is plain data here and stands as a field of `State` (log entry 4). -/

namespace Sys2Proof

/-- The largest standard identifier (R7). -/
def maxStandardId : Nat := 0x7FF

/-- The largest extended identifier (R7). -/
def maxExtendedId : Nat := 0x1FFFFFFF

/-- The longest payload, in bytes (R7). -/
def maxLength : Nat := 8

/-- `FREE_PICK`: which empty slot is suggested, for each set of empty slots (10_state.md R36, 92 D11). A set of one
leaves no choice. For a set of two, `true` picks the higher index. Every value of this type is a function from the
non-empty sets to a member of the set, and every such function is a value of this type. -/
structure FreePick where
  of01 : Bool
  of02 : Bool
  of12 : Bool
  of012 : Slot
  deriving DecidableEq, Repr

/-- The spec's default: the lowest index (R36). -/
def FreePick.lowest : FreePick := { of01 := false, of02 := false, of12 := false, of012 := .s0 }

end Sys2Proof
end

