-- ==== Sys2Proof/Machine/State.lean ====
section
/-! DEFINITION. The state of BXARB: `Block` is the complete list of 10_state.md R20; `State` adds what the model
itself needs (the schedule, the parameter FREE_PICK, the last word the host port answered). -/

namespace Sys2Proof.Machine

/-- The three states of a slot (R24). -/
inductive SlotState where
  | empty | pending | inflight
  deriving DecidableEq, Repr

/-- The phases of the sequencer (R40). -/
inductive Phase where
  | idle | chk0 | chk1 | chk2 | abort | wait | write | halt
  deriving DecidableEq, Repr

/-- The result of a priority comparison, from the first operand's side (00_scope.md R17). -/
inductive Prio where
  | equal | higher | lower
  deriving DecidableEq, Repr

/-- The error codes (60_exceptions.md R191). -/
inductive ErrorCode where
  | none | illCmd | rangeStd | rangeExt | lenData | lenRmt
  deriving DecidableEq, Repr

/-- A frame register (30_encoding.md R83): `FA`, `FB`, `EV`. -/
structure Frame where
  id : Word
  dlc : BitVec 4
  dl : Word
  dh : Word
  deriving DecidableEq, Repr

/-- The content registers of a slot (10_state.md R21 to R23): the identifier's bits 31:1, length and payload. -/
structure Content where
  id : BitVec 31
  dlc : BitVec 4
  dl : Word
  dh : Word
  deriving DecidableEq, Repr

/-- A mailbox slot: its content and its bookkeeping (R21 to R27). -/
structure Mailbox where
  content : Content
  st : SlotState
  abrq : Bool
  rqcp : Bool
  txok : Bool
  deriving DecidableEq, Repr

/-- The age bits (R28): `a01` is set when slot 0 was loaded before slot 1, and so on. -/
structure Age where
  a01 : Bool
  a02 : Bool
  a12 : Bool
  deriving DecidableEq, Repr

/-- The stored fields of `RSTAT` (R39). `BUSY`, `FATAL` and `PH` are functions of `SEQ.ph` (log entry 5). -/
structure Rstat where
  err : Bool
  retry : Bool
  evicted : Bool
  ord : Prio
  eq : Bool
  idlef : Bool
  ext : Bool
  rtr : Bool
  mbx : Slot
  ecode : ErrorCode
  deriving DecidableEq, Repr

/-- `RSTAT[19:2]` cleared (R39, R84). -/
def Rstat.cleared : Rstat :=
  { err := false, retry := false, evicted := false, ord := .equal, eq := false, idlef := false, ext := false,
    rtr := false, mbx := .s0, ecode := .none }

/-- The complete state of the block (R20). -/
structure Block where
  mb0 : Mailbox
  mb1 : Mailbox
  mb2 : Mailbox
  age : Age
  opa : Word
  opb : Word
  fa : Frame
  fb : Frame
  res : Word
  ev : Frame
  rs : Rstat
  ph : Phase
  snap : BitVec 3
  tgt : Slot
  deriving DecidableEq, Repr

/-- The values a reset leaves in the registers whose reset value is unspecified: a parameter of the state after
reset (70_reset_and_hazards.md R221, 93 U14). -/
structure ResetValues where
  c0 : Content
  c1 : Content
  c2 : Content
  opa : Word
  opb : Word
  fa : Frame
  fb : Frame
  res : Word
  ev : Frame
  deriving DecidableEq, Repr

/-- A slot after reset: empty, its flags 0, its content unspecified (R221). -/
def Mailbox.resetWith (c : Content) : Mailbox :=
  { content := c, st := .empty, abrq := false, rqcp := false, txok := false }

/-- The state after reset, for given values of the unspecified registers (R221). -/
def Block.resetWith (v : ResetValues) : Block :=
  { mb0 := .resetWith v.c0, mb1 := .resetWith v.c1, mb2 := .resetWith v.c2,
    age := { a01 := false, a02 := false, a12 := false },
    opa := v.opa, opb := v.opb, fa := v.fa, fb := v.fb, res := v.res, ev := v.ev,
    rs := .cleared, ph := .idle, snap := 0#3, tgt := .s0 }

/-- One event of the schedule (00_scope.md R9, 30_encoding.md R91): which agent steps next, with what the outside
says. -/
inductive Input where
  /-- HOST: one access of the host port. -/
  | host (a : Access)
  /-- SEQ: one phase step of the `TX` in progress. -/
  | seq
  /-- MBC: `ARES(i)`. -/
  | ares (i : Slot)
  /-- BUS: one bus-event word. -/
  | bus (e : BitVec 1)
  /-- The reset input, with the values it leaves in the unspecified registers (log entry 3). -/
  | rst (v : ResetValues)
  deriving DecidableEq, Repr

/-- The model's state: the block, the events still to happen (log entry 1), the parameter FREE_PICK (log entry 4), and the
word the host port answered to the last read (log entry 10). The last three are the model's own. -/
structure State where
  blk : Block
  inputs : List Input
  pick : FreePick
  rdata : Option Word
  deriving DecidableEq, Repr

/-- The machine never stops with a fault: `Reject` and `Fatal` are next states (60_exceptions.md R193, R194), and "every
state and every input has a defined successor or is refused by name" (93). So there is no constructor: nothing raises
one, which is safe (log entry 8). -/
inductive Fault where
  deriving DecidableEq, Repr

/-- Why a step is refused. -/
inductive Refusal where
  /-- An instruction without a meaning; raised by no arm of `exec`. Safe. -/
  | notModelled (mnemonic : String)
  /-- `PortFault`, raised by a host access (20_memory.md R66): the step is refused, as the rule asks. Safe. -/
  | portFault
  /-- The schedule names a SEQ or MBC step that is not enabled (42_mailbox.md R160, R164; log entry 9). Safe. -/
  | stepNotEnabled
  deriving DecidableEq, Repr

/-- The three outcomes of a step. -/
abbrev Result := Host.Outcome State Fault Refusal

/-- DESIGN CHOICE (log entry 2): the values the model names for the registers whose reset value is unspecified. -/
def ResetValues.zero : ResetValues :=
  { c0 := { id := 0, dlc := 0, dl := 0, dh := 0 }, c1 := { id := 0, dlc := 0, dl := 0, dh := 0 },
    c2 := { id := 0, dlc := 0, dl := 0, dh := 0 }, opa := 0, opb := 0,
    fa := { id := 0, dlc := 0, dl := 0, dh := 0 }, fb := { id := 0, dlc := 0, dl := 0, dh := 0 }, res := 0,
    ev := { id := 0, dlc := 0, dl := 0, dh := 0 } }

/-- The machine right after reset (R221), with nothing scheduled and the default FREE_PICK. -/
def State.reset : State :=
  { blk := .resetWith .zero, inputs := [], pick := .lowest, rdata := none }

end Sys2Proof.Machine
end

