-- ==== Sys2Proof/Machine/Operands.lean ====
section
/-! DEFINITION. How the block reads its operands: identifier words (30_encoding.md R80 to R82, 40_identifier.md R111),
the priority order (R116) and its arbitration key (R119), frames, their bytes and their equality (R83, R130, R131,
R135). -/

namespace Sys2Proof.Machine

/-- `canon(w)` (R82): bit 0 cleared, and bits 20:3 of a standard word. -/
def canon (w : Word) : Word :=
  if w.getLsbD 2 then w &&& 0xFFFFFFFE#32 else w &&& 0xFFE00002#32

/-- A canonical word equals its `canon` (R82). -/
def isCanonical (w : Word) : Bool := canon w == w

/-- The decoded identifier (R111): kind, remote flag, the number (11 or 29 bits, zero-extended) and the base ID. -/
structure LogicalId where
  ide : Bool
  rtr : Bool
  id : Word
  base : BitVec 11
  deriving DecidableEq, Repr

/-- `dec(w)` (R111). -/
def dec (w : Word) : LogicalId :=
  { ide := w.getLsbD 2
    rtr := w.getLsbD 1
    id := if w.getLsbD 2 then (w.extractLsb' 3 29).setWidth 32 else (w.extractLsb' 21 11).setWidth 32
    base := w.extractLsb' 21 11 }

/-- `num3(x, y)` (R116): the smaller number has the higher priority. -/
def num3 (x y : Nat) : Prio := if x < y then .higher else if y < x then .lower else .equal

/-- The first comparison unless it is `EQUAL`, then the second. -/
def Prio.orElse (c d : Prio) : Prio := if c = .equal then d else c

/-- `prio_cmp(a, b)` (R116). -/
def prioCmp (a b : Word) : Prio :=
  match (dec a).ide, (dec b).ide with
  | false, false | true, true =>
    (num3 (dec a).id.toNat (dec b).id.toNat).orElse (num3 (dec a).rtr.toNat (dec b).rtr.toNat)
  | false, true => (num3 (dec a).id.toNat (dec b).base.toNat).orElse .higher
  | true, false => (num3 (dec a).base.toNat (dec b).id.toNat).orElse .lower

/-- The arbitration key (R119): the order of keys as numbers is the priority order. -/
def key (w : Word) : Word :=
  let d := dec w
  let rtr : Word := (BitVec.ofBool d.rtr).setWidth 32
  let base : Word := d.base.setWidth 32 <<< 21
  if d.ide then base ||| (1#32 <<< 20) ||| (1#32 <<< 19) ||| ((d.id.extractLsb' 0 18).setWidth 32 <<< 1) ||| rtr
  else base ||| (rtr <<< 20)

/-- The standard identifier word of a number in range (R81, R112). -/
def standardId (n : Word) : Word := n <<< 21

/-- The extended identifier word of a number in range (R81, R113). -/
def extendedId (n : Word) : Word := (n <<< 3) ||| 0x4#32

/-- The remote flag of a word set as asked (R114). -/
def withRemote (w : Word) (r : Bool) : Word :=
  (canon w &&& 0xFFFFFFFD#32) ||| ((BitVec.ofBool r).setWidth 32 <<< 1)

/-- `ID[1]` (R130): the frame is a remote frame. -/
def Frame.isRemote (f : Frame) : Bool := f.id.getLsbD 1

/-- `byte(F, k)` (R83, 20_memory.md R64). -/
def Frame.byte (f : Frame) (k : Nat) : Byte :=
  if k < 4 then f.dl.extractLsb' (8 * k) 8 else f.dh.extractLsb' (8 * (k - 4)) 8

/-- `len(F)` (R130). -/
def Frame.len (f : Frame) : Nat := min f.dlc.toNat maxLength

/-- `payload(F)` of a data frame (R130); a remote frame has none. -/
def Frame.payload (f : Frame) : List Byte :=
  if f.isRemote then [] else (List.range f.len).map f.byte

/-- A well-formed frame (R131): (a) length, (b) canonical identifier, (c) zero padding of a data frame. -/
def Frame.wellFormed (f : Frame) : Bool :=
  decide (f.dlc.toNat ≤ maxLength) && isCanonical f.id &&
    (f.isRemote || (List.range 8).all fun k => decide (k < f.dlc.toNat) || f.byte k == 0#8)

/-- A data register from its four bytes, the first in bits 7:0 (R83). -/
def joinBytes (b0 b1 b2 b3 : Byte) : Word := b3 ++ b2 ++ b1 ++ b0

/-- Byte `k` of a frame, or 0 at and beyond the length `n` (R132). -/
def Frame.paddedByte (f : Frame) (n k : Nat) : Byte := if k < n then f.byte k else 0#8

/-- The frame with every byte `k ≥ n` zeroed (R132). -/
def Frame.padded (f : Frame) (n : Nat) : Frame :=
  { f with
    dl := joinBytes (f.paddedByte n 0) (f.paddedByte n 1) (f.paddedByte n 2) (f.paddedByte n 3)
    dh := joinBytes (f.paddedByte n 4) (f.paddedByte n 5) (f.paddedByte n 6) (f.paddedByte n 7) }

/-- `feq(A, B)` (R135). -/
def feq (a b : Frame) : Bool :=
  canon a.id == canon b.id && a.dlc == b.dlc &&
    (a.isRemote || (List.range a.len).all fun k => a.byte k == b.byte k)

/-- The slot's identifier word with bit 0 clear, `MB[i].ID ++ 0` (10_state.md R21). -/
def Content.idWord (c : Content) : Word := c.id ++ 0#1

/-- The frame held in a slot's content registers. -/
def Content.frame (c : Content) : Frame := { id := c.idWord, dlc := c.dlc, dl := c.dl, dh := c.dh }

/-- What `WRITE` stores of a frame: `canon(ID)[31:1]` and the other fields as they are (R157). -/
def Frame.content (f : Frame) : Content :=
  { id := (canon f.id).extractLsb' 1 31, dlc := f.dlc, dl := f.dl, dh := f.dh }

/-- One field of a frame as the 32-bit word the host port moves (20_memory.md R61, R70). -/
def Frame.get (f : Frame) : Field → Word
  | .id => f.id
  | .dlc => f.dlc.setWidth 32
  | .dl => f.dl
  | .dh => f.dh

/-- A host write of one field (R69); of `DLC` only bits 3:0 are kept (R70). -/
def Frame.set (f : Frame) (x : Field) (v : Word) : Frame :=
  match x with
  | .id => { f with id := v }
  | .dlc => { f with dlc := v.extractLsb' 0 4 }
  | .dl => { f with dl := v }
  | .dh => { f with dh := v }

end Sys2Proof.Machine
end

