-- ==== Sys2Proof/Machine/Flags.lean ====
section
/-! DEFINITION. The functions of the state (10_state.md R33 to R39): `TME`, `TXRQ`, `older`, `outranks`, `CODE`, `SEL`, the
words `STATUS` and `RSTAT`, and the outputs of the bus-engine port (R44). -/

namespace Sys2Proof

/-- The other two slots. -/
def Slot.others : Slot → List Slot
  | .s0 => [.s1, .s2]
  | .s1 => [.s0, .s2]
  | .s2 => [.s0, .s1]

/-- The 2-bit index of a slot. -/
def Slot.code : Slot → BitVec 2
  | .s0 => 0
  | .s1 => 1
  | .s2 => 2

/-- `FREE_PICK` applied to the set of empty slots, given by its three membership bits (R36). -/
def FreePick.pick (p : FreePick) : Bool → Bool → Bool → Slot
  | true, true, true => p.of012
  | true, true, false => if p.of01 then .s1 else .s0
  | true, false, true => if p.of02 then .s2 else .s0
  | false, true, true => if p.of12 then .s2 else .s1
  | true, false, false => .s0
  | false, true, false => .s1
  | false, false, true => .s2
  | false, false, false => .s0

end Sys2Proof

namespace Sys2Proof.Machine

/-- `MB[i]`. -/
def Block.slot (b : Block) : Slot → Mailbox
  | .s0 => b.mb0
  | .s1 => b.mb1
  | .s2 => b.mb2

/-- All slots, in the order 0, 1, 2. -/
def slots : List Slot := [.s0, .s1, .s2]

/-- `TME[i]` (R33). -/
def Mailbox.isEmpty (m : Mailbox) : Bool := m.st == .empty

/-- `TXRQ[i]` (R33). -/
def Mailbox.txrq (m : Mailbox) : Bool := m.st != .empty

/-- The slot takes part in the bus engine's choice: `PENDING` with no abort requested (R37). -/
def Mailbox.eligible (m : Mailbox) : Bool := m.st == .pending && !m.abrq

/-- The word read at the slot's `ID` offset: `MB[i].ID ++ TXRQ[i]` (R21, R93). -/
def Mailbox.idRead (m : Mailbox) : Word := m.content.id ++ BitVec.ofBool m.txrq

/-- Three bits, slot `i` at bit `i`. -/
def vec3 (f : Slot → Bool) : BitVec 3 := BitVec.ofBool (f .s2) ++ BitVec.ofBool (f .s1) ++ BitVec.ofBool (f .s0)

/-- The vector `TME` (R33). -/
def Block.tme (b : Block) : BitVec 3 := vec3 fun i => (b.slot i).isEmpty

/-- `older(i, j)` (R34); of a slot and itself it is false. -/
def Age.older (a : Age) : Slot → Slot → Bool
  | .s0, .s1 => a.a01
  | .s0, .s2 => a.a02
  | .s1, .s2 => a.a12
  | .s1, .s0 => !a.a01
  | .s2, .s0 => !a.a02
  | .s2, .s1 => !a.a12
  | .s0, .s0 | .s1, .s1 | .s2, .s2 => false

/-- `outranks(i, j)`, the extended order: priority, then the earlier load (R35). -/
def Block.outranks (b : Block) (i j : Slot) : Bool :=
  match prioCmp (b.slot i).content.idWord (b.slot j).content.idWord with
  | .higher => true
  | .equal => b.age.older i j
  | .lower => false

/-- The slot that every other slot outranks (R36). In the states of no run where the age bits run in a circle
there is none, and slot 2 is named (log entry 7). -/
def Block.lowest (b : Block) : Slot :=
  (slots.find? fun i => i.others.all fun j => b.outranks j i).getD .s2

/-- `CODE`, the suggested slot (R36). -/
def Block.code (p : FreePick) (b : Block) : Slot :=
  if b.tme ≠ 0#3 then p.pick b.mb0.isEmpty b.mb1.isEmpty b.mb2.isEmpty else b.lowest

/-- The slot in flight (R43 (a): at most one; if a state of no run has several, the lowest index, log entry 7). -/
def Block.inflight (b : Block) : Option Slot := slots.find? fun i => (b.slot i).st == .inflight

/-- `SEL`, the slot the bus engine would start next (R37). -/
def Block.sel (b : Block) : Option Slot :=
  if b.inflight.isSome then none
  else slots.find? fun i =>
    (b.slot i).eligible && i.others.all fun j => !(b.slot j).eligible || b.outranks i j

/-- The codes of the phases (R40). -/
def Phase.code : Phase → BitVec 3
  | .idle => 0
  | .chk0 => 1
  | .chk1 => 2
  | .chk2 => 3
  | .abort => 4
  | .wait => 5
  | .write => 6
  | .halt => 7

/-- `RSTAT.BUSY` (R39). -/
def Phase.busy : Phase → Bool
  | .chk0 | .chk1 | .chk2 | .abort | .wait | .write => true
  | .idle | .halt => false

/-- `RSTAT.FATAL` (R39). -/
def Phase.fatal : Phase → Bool
  | .halt => true
  | .idle | .chk0 | .chk1 | .chk2 | .abort | .wait | .write => false

/-- The codes of `RSTAT.ORD` (R39, R117). -/
def Prio.code : Prio → BitVec 2
  | .equal => 0
  | .higher => 1
  | .lower => 2

/-- The codes of `RSTAT.ECODE` (60_exceptions.md R191). -/
def ErrorCode.code : ErrorCode → BitVec 4
  | .none => 0
  | .illCmd => 1
  | .rangeStd => 2
  | .rangeExt => 3
  | .lenData => 4
  | .lenRmt => 5

/-- The codes of a slot's state (R24). -/
def SlotState.code : SlotState → BitVec 2
  | .empty => 0
  | .pending => 1
  | .inflight => 2

/-- `STATUS.SELV` and `STATUS.SEL` as the 3 bits 26:24 (R38). -/
def selBits : Option Slot → BitVec 3
  | none => 0#3
  | some i => 1#1 ++ i.code

/-- The word `STATUS` (R38). -/
def Block.statusWord (p : FreePick) (b : Block) : Word :=
  0#5 ++ selBits b.sel ++ 0#1 ++ (vec3 fun i => (b.slot i).txok) ++ 0#1 ++ (vec3 fun i => (b.slot i).rqcp) ++ 0#1 ++
    (vec3 fun i => (b.slot i).abrq) ++ 0#1 ++ (vec3 fun i => (b.slot i).st == .inflight) ++ 0#1 ++ b.tme ++ 0#2 ++
    (b.code p).code

/-- The word `RSTAT` (R39). -/
def Block.rstatWord (b : Block) : Word :=
  0#9 ++ b.ph.code ++ b.rs.ecode.code ++ 0#2 ++ b.rs.mbx.code ++ 0#1 ++ BitVec.ofBool b.rs.rtr ++
    BitVec.ofBool b.rs.ext ++ BitVec.ofBool b.rs.idlef ++ BitVec.ofBool b.rs.eq ++ b.rs.ord.code ++
    BitVec.ofBool b.rs.evicted ++ BitVec.ofBool b.rs.retry ++ BitVec.ofBool b.rs.err ++ BitVec.ofBool b.ph.fatal ++
    BitVec.ofBool b.ph.busy

/-- The outputs of the bus-engine port (R44). -/
structure BusPort where
  selValid : Bool
  selIdx : BitVec 2
  frame : Option Frame
  deriving DecidableEq, Repr

/-- `sel_valid`, `sel_idx` and the frame of the slot in flight or, where none is, of the selected slot (R44). DESIGN CHOICE
(log entry 17): where `SEL` is none, so also while a slot is in flight, `sel_idx` is 0; with no slot in flight and none
selected, no frame is shown. -/
def Block.busPort (b : Block) : BusPort :=
  { selValid := b.sel.isSome
    selIdx := (b.sel.map Slot.code).getD 0
    frame := (b.inflight.or b.sel).map fun i => (b.slot i).content.frame }

end Sys2Proof.Machine
end

