-- ==== Sys2Proof/Machine/Ops.lean ====
section
/-! DEFINITION. The operations the commands and steps share: writing a slot, accepting a command (20_memory.md R67,
R68, 30_encoding.md R84), raising an error (60_exceptions.md R193, R194) and the register accesses of the host port
(20_memory.md R60 to R72). -/

namespace Sys2Proof

/-- The four registers of a frame at a 16-byte stride (R61). -/
def fieldAt (f : Field → Reg) (off : Nat) : Option Reg :=
  match off with
  | 0x0 => some (f .id)
  | 0x4 => some (f .dlc)
  | 0x8 => some (f .dl)
  | 0xC => some (f .dh)
  | _ => none

/-- The register map (R61): the register at a byte offset, none where the offset is unmapped. -/
def regAt (off : BitVec 8) : Option Reg :=
  match off.toNat / 16, off.toNat % 16 with
  | 0, 0x0 => some .cmd
  | 0, 0x4 => some .rstat
  | 0, 0x8 => some .res
  | 0, 0xC => some .status
  | 1, 0x0 => some .opa
  | 1, 0x4 => some .opb
  | 2, k => fieldAt .fa k
  | 3, k => fieldAt .fb k
  | 4, k => fieldAt .ev k
  | 5, k => fieldAt (.mb .s0) k
  | 6, k => fieldAt (.mb .s1) k
  | 7, k => fieldAt (.mb .s2) k
  | _, _ => none

/-- The registers the host may write (R47, R61). -/
def Reg.writable : Reg → Bool
  | .cmd | .opa | .opb | .fa _ | .fb _ => true
  | .rstat | .res | .status | .ev _ | .mb _ _ => false

/-- The register an access reaches, or none: `PortFault` (R66). The causes are not told apart, for the error has no
code (R196). -/
def Access.target (a : Access) : Option Reg :=
  if a.fullWidth && a.aligned then
    match a, regAt a.off with
    | .read _ _, r => r
    | .write _ _ _, some r => if r.writable then some r else none
    | .write _ _ _, none => none
  else none

end Sys2Proof

namespace Sys2Proof.Machine

/-- `MB[i] <- m`. -/
def Block.setSlot (b : Block) (i : Slot) (m : Mailbox) : Block :=
  match i with
  | .s0 => { b with mb0 := m }
  | .s1 => { b with mb1 := m }
  | .s2 => { b with mb2 := m }

/-- A frame register selected by a command word (R84). -/
def Block.frame (b : Block) : FSel → Frame
  | .fa => b.fa
  | .fb => b.fb

/-- Write the frame register selected by a command word. -/
def Block.setFrame (b : Block) (x : FSel) (f : Frame) : Block :=
  match x with
  | .fa => { b with fa := f }
  | .fb => { b with fb := f }

/-- `RSTAT[19:2] <- 0` (R84). -/
def Block.clearResults (b : Block) : Block := { b with rs := .cleared }

/-- The host's writes are ignored: busy (R67) or halted (R68). -/
def Block.ignoresWrites (b : Block) : Bool := b.ph.busy || b.ph.fatal

/-- A `CMD` write: ignored while busy or halted, else the result fields are cleared and the command takes its
effect (R67, R68, R84, R198 (a)). -/
def Block.issue (b : Block) (effect : Block → Block) : Block :=
  if b.ignoresWrites then b else effect b.clearResults

/-- `raise Reject(code)` (R193): two `RSTAT` fields, nothing else. -/
def Block.raiseReject (code : ErrorCode) (b : Block) : Block :=
  { b with rs := { b.rs with err := true, ecode := code } }

/-- `raise Fatal(code)` (R194): two `RSTAT` fields and the halt, nothing else. -/
def Block.raiseFatal (code : ErrorCode) (b : Block) : Block :=
  { b with rs := { b.rs with err := true, ecode := code }, ph := .halt }

/-- The return from an error (R200): the next accepted command clears `ERR` and `ECODE`. Not after a `Fatal`, where no
command is accepted. -/
def Block.returnFromError (b : Block) : Block := b.issue id

/-- Change the block, and nothing of the model's own fields. -/
def State.onBlock (f : Block → Block) (s : State) : State := { s with blk := f s.blk }

/-- The host step that writes a command's word to `CMD`: a next state. -/
def command (effect : Block → Block) (s : State) : Result := .next (s.onBlock fun b => b.issue effect)

/-- A slot emptied by `ARES` (not sent) or `BDONE` (sent): its content is not touched (R164, R166). -/
def Mailbox.emptied (sent : Bool) (m : Mailbox) : Mailbox :=
  { m with st := .empty, abrq := false, rqcp := true, txok := sent }

/-- A slot loaded by `WRITE` (R157). -/
def Mailbox.loaded (f : Frame) : Mailbox :=
  { content := f.content, st := .pending, abrq := false, rqcp := false, txok := false }

/-- The age bits after a load of slot `t`, which becomes the youngest (R28, R157). -/
def Age.youngest (a : Age) : Slot → Age
  | .s0 => { a with a01 := false, a02 := false }
  | .s1 => { a with a01 := true, a12 := false }
  | .s2 => { a with a02 := true, a12 := true }

/-- The reset input (R220): every element of the block takes the value of R221; the model's own fields stay. -/
def State.resetBlock (v : ResetValues) (s : State) : State := s.onBlock fun _ => .resetWith v

/-- What a host read of a register returns (R61); `CMD` reads 0 (R72). -/
def Block.readReg (p : FreePick) (b : Block) : Reg → Word
  | .cmd => 0
  | .rstat => b.rstatWord
  | .res => b.res
  | .status => b.statusWord p
  | .opa => b.opa
  | .opb => b.opb
  | .fa f => b.fa.get f
  | .fb f => b.fb.get f
  | .ev f => b.ev.get f
  | .mb i .id => (b.slot i).idRead
  | .mb i f => (b.slot i).content.frame.get f

/-- A host write that is not ignored stores into an operand or frame register (R69, R70). No other register stores
anything from the host. -/
def Block.storeReg (b : Block) (v : Word) : Reg → Block
  | .opa => { b with opa := v }
  | .opb => { b with opb := v }
  | .fa f => { b with fa := b.fa.set f v }
  | .fb f => { b with fb := b.fb.set f v }
  | .cmd | .rstat | .res | .status | .ev _ | .mb _ _ => b

/-- A host write of a register other than `CMD`: ignored while busy or halted (R67, R68). -/
def Block.writeReg (b : Block) (v : Word) (r : Reg) : Block := if b.ignoresWrites then b else b.storeReg v r

end Sys2Proof.Machine
end

