-- ==== Sys2Proof/Machine/FrameCommands.lean ====
section
/-! DEFINITION. The frame commands (41_frame.md R132 to R137). -/

namespace Sys2Proof.Machine

/-- The data frame `MKDATA` makes of the selected frame register (R132): remote flag 0, the given length, zero padding. -/
def dataFrame (id len : Word) (f : Frame) : Frame :=
  { f.padded len.toNat with id := withRemote id false, dlc := len.extractLsb' 0 4 }

/-- The remote frame `MKRMT` makes (R133): remote flag 1, the given length, data registers 0. -/
def remoteFrame (id len : Word) : Frame :=
  { id := withRemote id true, dlc := len.extractLsb' 0 4, dl := 0, dh := 0 }

/-- `MKDATA` (R132): the full 32 bits of `OPB` are the length. -/
def mkdataEffect (x : FSel) (b : Block) : Block :=
  if b.opb.toNat > maxLength then b.raiseFatal .lenData
  else b.setFrame x (dataFrame b.opa b.opb (b.frame x))

/-- `MKRMT` (R133). -/
def mkrmtEffect (x : FSel) (b : Block) : Block :=
  if b.opb.toNat > maxLength then b.raiseReject .lenRmt else b.setFrame x (remoteFrame b.opa b.opb)

/-- `FEQ` (R136). -/
def feqEffect (b : Block) : Block := { b with rs := { b.rs with eq := feq b.fa b.fb } }

/-- `FCMP` (R137). -/
def fcmpEffect (b : Block) : Block := { b with rs := { b.rs with ord := prioCmp b.fa.id b.fb.id } }

def execMkdata (x : FSel) (s : State) : Result := command (mkdataEffect x) s

def execMkrmt (x : FSel) (s : State) : Result := command (mkrmtEffect x) s

def execFeq (s : State) : Result := command feqEffect s

def execFcmp (s : State) : Result := command fcmpEffect s

end Sys2Proof.Machine
end

