-- ==== Sys2Proof/Machine/Identifier.lean ====
section
/-! DEFINITION. The identifier commands (40_identifier.md R110 to R117). -/

namespace Sys2Proof.Machine

/-- `MKSTD` (R112). -/
def mkstdEffect (b : Block) : Block :=
  if b.opa.toNat > maxStandardId then b.raiseReject .rangeStd else { b with res := standardId b.opa }

/-- `MKEXT` (R113). -/
def mkextEffect (b : Block) : Block :=
  if b.opa.toNat > maxExtendedId then b.raiseReject .rangeExt else { b with res := extendedId b.opa }

/-- `SETRTR` (R114): only bit 0 of `OPB` is read. -/
def setrtrEffect (b : Block) : Block := { b with res := withRemote b.opa (b.opb.getLsbD 0) }

/-- `DECID` (R115). -/
def decidEffect (b : Block) : Block :=
  { b with res := (dec b.opa).id, rs := { b.rs with ext := (dec b.opa).ide, rtr := (dec b.opa).rtr } }

/-- `CMP` (R117). -/
def cmpEffect (b : Block) : Block := { b with rs := { b.rs with ord := prioCmp b.opa b.opb } }

def execMkstd (s : State) : Result := command mkstdEffect s

def execMkext (s : State) : Result := command mkextEffect s

def execSetrtr (s : State) : Result := command setrtrEffect s

def execDecid (s : State) : Result := command decidEffect s

def execCmp (s : State) : Result := command cmpEffect s

end Sys2Proof.Machine
end

