-- ==== Sys2Proof/Machine/Mailbox.lean ====
section
/-! DEFINITION. The transmit mailbox commands, the phases of the sequencer, and the steps of the mailbox controller
and the bus engine (42_mailbox.md R151 to R168). -/

namespace Sys2Proof.Machine

/-- `NOP` (R162): the clearing every accepted command does, nothing else. -/
def nopEffect (b : Block) : Block := b

/-- `IDLE` (R161). -/
def idleEffect (b : Block) : Block := { b with rs := { b.rs with idlef := b.tme == 0b111#3 } }

/-- `TX`, first phase (R151): the length check, then the snapshot of `TME` and `CODE`. -/
def txEffect (p : FreePick) (b : Block) : Block :=
  if b.fa.dlc.toNat > maxLength then b.raiseFatal .lenData
  else { b with snap := b.tme, tgt := b.code p, ph := if b.tme ≠ 0#3 then .write else .chk0 }

/-- Phases `CHK0`, `CHK1`, `CHK2` (R152 to R154): the live slot blocks the new frame unless it is empty or strictly
outranked. -/
def checkSlot (i : Slot) (next : Phase) (b : Block) : Block :=
  if (b.slot i).txrq && prioCmp b.fa.id (b.slot i).content.idWord != .higher then
    { b with rs := { b.rs with retry := true }, ph := .idle }
  else { b with ph := next }

/-- Phase `ABORT` (R155): request the abort of the target unless it is empty. -/
def abortTarget (b : Block) : Block :=
  let m := b.slot b.tgt
  { (if m.isEmpty then b else b.setSlot b.tgt { m with abrq := true }) with ph := .wait }

/-- Phase `WAIT` once the abort is resolved (R156): read the frame back if it was aborted before it was sent. -/
def readBack (b : Block) : Block :=
  let m := b.slot b.tgt
  if m.txok then { b with ph := .write }
  else { b with ev := m.content.frame, rs := { b.rs with evicted := true }, ph := .write }

/-- Phase `WRITE` (R157). -/
def writeTarget (b : Block) : Block :=
  { b.setSlot b.tgt (.loaded b.fa) with
    age := b.age.youngest b.tgt, rs := { b.rs with mbx := b.tgt }, ph := .idle }

/-- One step of SEQ, none where it has no step (R160). In `WAIT` with the abort unresolved the phase is held and
nothing happens (R156, 30_encoding.md R91). -/
def Block.seqStep (b : Block) : Option Block :=
  match b.ph with
  | .idle | .halt => none
  | .chk0 => some (checkSlot .s0 .chk1 b)
  | .chk1 => some (checkSlot .s1 .chk2 b)
  | .chk2 => some (checkSlot .s2 .abort b)
  | .abort => some (abortTarget b)
  | .wait => some (if (b.slot b.tgt).abrq then b else readBack b)
  | .write => some (writeTarget b)

/-- `ARES(i)` is enabled (R164). -/
def Block.aresEnabled (b : Block) (i : Slot) : Bool := (b.slot i).st == .pending && (b.slot i).abrq

/-- `ARES(i)` (R164). -/
def Block.ares (b : Block) (i : Slot) : Block := b.setSlot i ((b.slot i).emptied false)

/-- `BSTART` (R165); ignored where `SEL` is none (R167). -/
def Block.bstart (b : Block) : Block :=
  match b.sel with
  | none => b
  | some i => b.setSlot i { b.slot i with st := .inflight }

/-- `BDONE` (R166); ignored where no slot is in flight (R167). -/
def Block.bdone (b : Block) : Block :=
  match b.inflight with
  | none => b
  | some i => b.setSlot i ((b.slot i).emptied true)

def execNop (s : State) : Result := command nopEffect s

def execIdle (s : State) : Result := command idleEffect s

def execTx (s : State) : Result := command (txEffect s.pick) s

def execBstart (s : State) : Result := .next (s.onBlock Block.bstart)

def execBdone (s : State) : Result := .next (s.onBlock Block.bdone)

end Sys2Proof.Machine
end

