-- ==== Sys2Proof/Machine/Dispatch.lean ====
section
/-! DEFINITION. The meaning of each row of the opcode table: for a command, the host step that writes its word to
`CMD` (20_memory.md R72); for a bus event, the step of the bus engine (30_encoding.md R87). -/

namespace Sys2Proof.Machine

def exec (i : Instr) (s : State) : Host.Outcome State Fault Refusal :=
  match i with
  | .nop => Sys2Proof.Machine.execNop s
  | .mkstd => Sys2Proof.Machine.execMkstd s
  | .mkext => Sys2Proof.Machine.execMkext s
  | .setrtr => Sys2Proof.Machine.execSetrtr s
  | .decid => Sys2Proof.Machine.execDecid s
  | .cmp => Sys2Proof.Machine.execCmp s
  | .mkdata x => Sys2Proof.Machine.execMkdata x s
  | .mkrmt x => Sys2Proof.Machine.execMkrmt x s
  | .feq => Sys2Proof.Machine.execFeq s
  | .fcmp => Sys2Proof.Machine.execFcmp s
  | .tx => Sys2Proof.Machine.execTx s
  | .idle => Sys2Proof.Machine.execIdle s
  | .bstart => Sys2Proof.Machine.execBstart s
  | .bdone => Sys2Proof.Machine.execBdone s

end Sys2Proof.Machine
end

