-- ==== Sys2Proof/Machine/Agents.lean ====
section
/-! DEFINITION. One step of each agent (00_scope.md R9): HOST, SEQ, MBC, BUS, and the reset input. -/

namespace Sys2Proof.Machine

/-- A command word that is illegal raises `Fatal(E_ILLCMD)`, when the write is not ignored (30_encoding.md R84, R86). -/
def issueIllegal (s : State) : Result := command (Block.raiseFatal .illCmd) s

/-- HOST writes a word to `CMD` (20_memory.md R72): it is decoded and executed in the same step. -/
def issueCommand (w : Word) (s : State) : Result :=
  match decode (.cmd w) with
  | .ok i => exec i s
  | .error _ => issueIllegal s

/-- HOST reads a register (R65): no state of the block changes, the port answers with the word. -/
def hostRead (r : Reg) (s : State) : Result := .next { s with rdata := some (s.blk.readReg s.pick r) }

/-- HOST writes a register: `CMD` issues a command (R72), any other stores (R69, R70). -/
def hostWrite (r : Reg) (v : Word) (s : State) : Result :=
  match r with
  | .cmd => issueCommand v s
  | r => .next (s.onBlock fun b => b.writeReg v r)

/-- One host access; a `PortFault` is decided before anything else and refuses the step (R66, 60_exceptions.md R198 (c)). -/
def hostAccess (a : Access) (s : State) : Result :=
  match a.target with
  | none => .refused .portFault
  | some r =>
    match a with
    | .read _ _ => hostRead r s
    | .write _ _ v => hostWrite r v s

/-- One step of SEQ; refused where SEQ has none (42_mailbox.md R160, log entry 9). -/
def seqAgent (s : State) : Result :=
  match s.blk.seqStep with
  | none => .refused .stepNotEnabled
  | some b => .next (s.onBlock fun _ => b)

/-- `ARES(i)` of MBC; refused where it is not enabled (R164, 30_encoding.md R91, log entry 9). -/
def mbcAgent (i : Slot) (s : State) : Result :=
  if s.blk.aresEnabled i then .next (s.onBlock fun b => b.ares i) else .refused .stepNotEnabled

/-- A bus event: its word is decoded (30_encoding.md R87). Every bus-event word is legal. -/
def busAgent (e : BitVec 1) (s : State) : Result :=
  match decode (.busEvent e) with
  | .ok i => exec i s
  | .error _ => .next s

/-- One event of the schedule. -/
def runInput (x : Input) (s : State) : Result :=
  match x with
  | .host a => hostAccess a s
  | .seq => seqAgent s
  | .ares i => mbcAgent i s
  | .bus e => busAgent e s
  | .rst v => .next (s.resetBlock v)

/-- The step: the first event of the schedule happens. With an empty schedule no agent steps and nothing changes
(log entry 1). -/
def stepAgents (s : State) : Result :=
  match s.inputs with
  | [] => .next s
  | x :: rest => runInput x { s with inputs := rest }

/-- The event by which an encoded instruction reaches the block: a command word by a write to `CMD` (20_memory.md R72),
a bus-event word by the strobe of the bus engine (R87). -/
def inputOf : FetchWord → Input
  | .cmd w => .host (.write 0x00 .word w)
  | .busEvent e => .bus e

/-- Schedule a word of the opcode table as the very next event (log entry 12). -/
def scheduleWord (s : State) (nbits w : Nat) : State :=
  match fetchWordOf nbits w with
  | some fw => { s with inputs := inputOf fw :: s.inputs }
  | none => s

end Sys2Proof.Machine
end

