-- ==== Sys2Proof/Machine/Step.lean ====
section
/-! DEFINITION. The step of the machine, and where the next instruction is taken from: the head of the schedule. -/

namespace Sys2Proof.Machine

/-- One step: one atomic transition by the agent the schedule names (00_scope.md R9). -/
def step (s : State) : Host.Outcome State Fault Refusal := stepAgents s

/-- The state whose very next step runs the given word of the opcode table. -/
def State.withFetchWord (s : State) (nbits w : Nat) : State := scheduleWord s nbits w

end Sys2Proof.Machine
end

