-- ==== Sys2Proof/Machine/Script.lean ====
section
/-! DEFINITION. Scripts (30_encoding.md R91, R92; 00_scope.md R13): one line is one event of the schedule. A script is
notation for a list of events; the block knows nothing of it. -/

namespace Sys2Proof.Machine

/-- The byte offset of a field in a frame's four registers (R61). -/
def fieldOffset : Field → BitVec 8
  | .id => 0x0
  | .dlc => 0x4
  | .dl => 0x8
  | .dh => 0xC

/-- The offset of a register (R61). -/
def regOffset : Reg → BitVec 8
  | .cmd => 0x00
  | .rstat => 0x04
  | .res => 0x08
  | .status => 0x0C
  | .opa => 0x10
  | .opb => 0x14
  | .fa f => 0x20 + fieldOffset f
  | .fb f => 0x30 + fieldOffset f
  | .ev f => 0x40 + fieldOffset f
  | .mb .s0 f => 0x50 + fieldOffset f
  | .mb .s1 f => 0x60 + fieldOffset f
  | .mb .s2 f => 0x70 + fieldOffset f

/-- A line of a script (R91). `op` is a mnemonic of R85, or `BSTART` or `BDONE`. -/
inductive Line where
  | wr (r : Reg) (v : Word)
  | rd (r : Reg)
  | op (i : Instr)
  | step
  | ares (i : Slot)
  | rst (v : ResetValues)
  deriving DecidableEq, Repr

/-- The event a line stands for (R91). -/
def Line.input : Line → Input
  | .wr r v => .host (.write (regOffset r) .word v)
  | .rd r => .host (.read (regOffset r) .word)
  | .op i => inputOf (encode i)
  | .step => .seq
  | .ares i => .ares i
  | .rst v => .rst v

/-- The pseudo-instructions that are straight-line (R92). -/
def pseudoMkstd (v : Word) : List Line := [.wr .opa v, .op .mkstd]

def pseudoMkext (v : Word) : List Line := [.wr .opa v, .op .mkext]

def pseudoSetrtr (w b : Word) : List Line := [.wr .opa w, .wr .opb b, .op .setrtr]

def pseudoDecid (w : Word) : List Line := [.wr .opa w, .op .decid]

def pseudoCmp (a b : Word) : List Line := [.wr .opa a, .wr .opb b, .op .cmp]

def pseudoLdfa (id dlc dl dh : Word) : List Line :=
  [.wr (.fa .id) id, .wr (.fa .dlc) dlc, .wr (.fa .dl) dl, .wr (.fa .dh) dh]

def pseudoLdfb (id dlc dl dh : Word) : List Line :=
  [.wr (.fb .id) id, .wr (.fb .dlc) dlc, .wr (.fb .dl) dl, .wr (.fb .dh) dh]

/-- The state a step answered, none where it was refused. -/
def answered : Result → Option State
  | .next t => some t
  | .fault _ => none
  | .refused _ => none

/-- Go on from the state a step answered. -/
def andThen (r : Result) (f : State → Result) : Result :=
  match r with
  | .next t => f t
  | .fault r => .fault r
  | .refused r => .refused r

/-- Run events one after another, stopping at the first that is refused. -/
def play : List Input → State → Result
  | [], s => .next s
  | x :: rest, s => andThen (runInput x s) (play rest)

/-- The state after the lines of a piece of a script; whether a whole script has an end state is `scriptEnd`. -/
def playLines (l : List Line) (s : State) : Result := play (l.map Line.input) s

/-- The phase is `WAIT` and held (42_mailbox.md R156). -/
def Block.held (b : Block) : Bool := b.ph == .wait && (b.slot b.tgt).abrq

/-- No `TX` is in progress: the phase is `IDLE` or `HALT` (R13). -/
def Block.complete (b : Block) : Bool := b.ph == .idle || b.ph == .halt

/-- A step of MBC or BUS, which a schedule may put between the steps of a `RUN` or a `TXSPIN` (R92). -/
inductive Between where
  | ares (i : Slot)
  | bus (e : BitVec 1)
  deriving DecidableEq, Repr

def Between.input : Between → Input
  | .ares i => .ares i
  | .bus e => .bus e

/-- The steps of MBC and BUS that fall in one place of a schedule, in order. -/
def playBetween (l : List Between) (s : State) : Result := play (l.map Between.input) s

/-- At most `n` SEQ steps. Before each the head of `between` happens, and nothing once that list is used up; they end where no
`TX` is in progress or the phase is held. -/
def runSteps : Nat → List (List Between) → State → Result
  | 0, _, s => .next s
  | n + 1, between, s =>
    if s.blk.complete then .next s
    else andThen (playBetween (between.headD []) s) fun t =>
      if t.blk.complete || t.blk.held then .next t else andThen (seqAgent t) (runSteps n between.tail)

/-- `RUN` (R92): SEQ steps until the phase is `IDLE` or is held in `WAIT`. A `TX` takes at most six
(70_reset_and_hazards.md R237). Log entry 15. -/
def run (between : List (List Between)) (s : State) : Result := runSteps 6 between s

/-- The steps of MBC and BUS that a schedule interleaves with one round of `TXSPIN` (R92): those between the read of `RSTAT`
that ended the round before, if any, and this round's `TX`; those between `TX` and the end of `RUN`, as `run` takes them; and
those between the end of `RUN` and this round's read of `RSTAT`. -/
structure Round where
  beforeTx : List Between := []
  inRun : List (List Between) := []
  beforeRead : List Between := []
  deriving DecidableEq, Repr

/-- One round of `TXSPIN` (R92): `TX`, `RUN`, and a read of `RSTAT`, with the round's steps of MBC and BUS. -/
def txAttempt (r : Round) (s : State) : Result :=
  andThen (andThen (andThen (andThen
    (playBetween r.beforeTx s)
    (runInput (Line.op .tx).input))
    (run r.inRun))
    (playBetween r.beforeRead))
    (runInput (Line.rd .rstat).input)

/-- `TXSPIN` (R92) under a schedule that gives the steps of MBC and BUS in each round: it ends in the first round whose read of
`RSTAT` has `RETRY` 0. A schedule in which no round does gives no end: the loop still runs (log entry 15). -/
def txSpin : List Round → State → Option State
  | [], _ => none
  | r :: more, s =>
    (answered (txAttempt r s)).bind fun t =>
      if (t.rdata.getD 0).getLsbD 3 then txSpin more t else some t

/-- An item of a whole script: a line, or one of the two pseudo-instructions that are loops (R91, R92). -/
inductive Item where
  | line (l : Line)
  | run (between : List (List Between))
  | txSpin (rounds : List Round)
  deriving DecidableEq, Repr

def playItem : Item → State → Option State
  | .line l, s => answered (runInput l.input s)
  | .run between, s => answered (Sys2Proof.Machine.run between s)
  | .txSpin rounds, s => Sys2Proof.Machine.txSpin rounds s

/-- The state after the last item of a script, none where an item is refused or does not end. -/
def playScript : List Item → State → Option State
  | [], s => some s
  | x :: rest, s => (playItem x s).bind (playScript rest)

/-- The end state of a script (R13): the state after its last line, and none where a `TX` is in progress there. -/
def scriptEnd (l : List Item) (s : State) : Option State := (playScript l s).filter fun t => t.blk.complete

end Sys2Proof.Machine
end

