-- ==== Sys2Proof/Safety.lean ====
section
/-! DEFINITION. What counts as a sound state and a sound run of BXARB, in the terms the statements use: the invariants of
10_state.md R43, what holds while a `TX` is in progress (42_mailbox.md R169, R170), the slot life cycle (R168), and
runs. -/

namespace Sys2Proof.Machine

/-- A command written now is accepted: no `TX` in progress and not halted (10_state.md R40). -/
def Block.accepting (b : Block) : Prop := b.ph = .idle

/-- The slot has been loaded at least once since reset: it holds a frame, or its last request has completed (R24, R26). -/
def Mailbox.everLoaded (m : Mailbox) : Prop := m.st ≠ .empty ∨ m.rqcp = true

/-- The age bits do not run in a circle: they are the order of the loads (R28). -/
def Age.acyclic (a : Age) : Prop := ¬(a.a01 = a.a12 ∧ a.a02 ≠ a.a01)

/-- The phases of the replace path up to the abort request, in which no abort has yet been asked for (42_mailbox.md R159). -/
def Phase.checking : Phase → Bool
  | .chk0 | .chk1 | .chk2 | .abort => true
  | .idle | .wait | .write | .halt => false

/-- The slots a phase of the replace path has already checked (R152 to R156). -/
def Phase.checked : Phase → Slot → Bool
  | .chk1, .s0 | .chk2, .s0 | .chk2, .s1 => true
  | .abort, _ | .wait, _ => true
  | _, _ => false

/-- The invariants R43 (a) to (d), (f) and (g). R43 (e) holds by the types of `State`. -/
structure Block.SlotsSound (b : Block) : Prop where
  /-- (a) -/
  oneInFlight : ∀ i j, (b.slot i).st = .inflight → (b.slot j).st = .inflight → i = j
  /-- (b) -/
  abortNeedsFrame : ∀ i, (b.slot i).abrq = true → (b.slot i).st ≠ .empty
  /-- (c) -/
  heldIsOpen : ∀ i, (b.slot i).st ≠ .empty → (b.slot i).rqcp = false ∧ (b.slot i).txok = false
  /-- (d) -/
  sentIsComplete : ∀ i, (b.slot i).txok = true → (b.slot i).rqcp = true
  /-- (f) -/
  abortOnlyOfTarget : ∀ i, (b.slot i).abrq = true → b.ph = .wait ∧ b.tgt = i
  /-- (g) -/
  loadedFrame : ∀ i, (b.slot i).everLoaded →
    (b.slot i).content.dlc.toNat ≤ 8 ∧ isCanonical (b.slot i).content.idWord = true

/-- What holds while a `TX` is in progress, and of the age bits always. -/
structure Block.TxSound (b : Block) : Prop where
  /-- The frame being sent passed the length check, and `FA` cannot change (R151, 20_memory.md R67). -/
  frameLength : b.ph.busy = true → b.fa.dlc.toNat ≤ 8
  /-- `WRITE` finds its target empty (R169). -/
  writeIntoEmpty : b.ph = .write → (b.slot b.tgt).st = .empty
  /-- On the replace path a slot that has emptied was sent (no abort has been asked for it). -/
  emptiedBySending : ∀ i, b.ph.checking = true ∨ (b.ph = .wait ∧ i ≠ b.tgt) →
    (b.slot i).st ≠ .empty ∨ (b.slot i).txok = true
  /-- In `WAIT` the target has an abort pending or is empty (R155, R156). -/
  waitTarget : b.ph = .wait → (b.slot b.tgt).abrq = true ∨ (b.slot b.tgt).st = .empty
  /-- In `WAIT` the target has been loaded (the snapshot showed it non-empty). -/
  waitTargetLoaded : b.ph = .wait → (b.slot b.tgt).everLoaded
  /-- A checked slot was sent since, or the new frame strictly outranks what it holds or held (R170). -/
  checkedOutranked : ∀ i, b.ph.checked i = true →
    (b.slot i).txok = true ∨ prioCmp b.fa.id (b.slot i).content.idWord = .higher
  /-- The age bits are an order (R28, R35). -/
  ages : b.age.acyclic

/-- The invariant every step keeps. -/
structure Block.Inv (b : Block) : Prop where
  slots : b.SlotsSound
  tx : b.TxSound

/-- A slot's bookkeeping `(st, abrq, rqcp, txok)`, as the table of R168 writes it. -/
def Mailbox.flags (m : Mailbox) : SlotState × Bool × Bool × Bool := (m.st, m.abrq, m.rqcp, m.txok)

/-- The rows of the slot state machine (R168) for slot `i`: the event, the state before and the bookkeeping after. -/
inductive SlotMove (b : Block) (i : Slot) : Input → SlotState × Bool × Bool × Bool → Prop
  /-- Empty → Pending -/
  | load (h : b.ph = .write ∧ b.tgt = i) (hs : (b.slot i).st = .empty ∧ (b.slot i).abrq = false) :
      SlotMove b i .seq (.pending, false, false, false)
  /-- begins sending -/
  | start (h : b.sel = some i) (hs : (b.slot i).st = .pending ∧ (b.slot i).abrq = false) :
      SlotMove b i (.bus 0) (.inflight, false, false, false)
  /-- Pending → AbortRequested, not started -/
  | abortPending (h : b.ph = .abort ∧ b.tgt = i) (hs : (b.slot i).st = .pending ∧ (b.slot i).abrq = false) :
      SlotMove b i .seq (.pending, true, false, false)
  /-- Pending → AbortRequested, in flight -/
  | abortInFlight (h : b.ph = .abort ∧ b.tgt = i) (hs : (b.slot i).st = .inflight ∧ (b.slot i).abrq = false) :
      SlotMove b i .seq (.inflight, true, false, false)
  /-- Pending → Sent, or AbortRequested → SentBeforeAbortCompleted -/
  | sent (hs : (b.slot i).st = .inflight) : SlotMove b i (.bus 1) (.empty, false, true, true)
  /-- AbortRequested → AbortedAndEmpty -/
  | aborted (hs : (b.slot i).st = .pending ∧ (b.slot i).abrq = true) :
      SlotMove b i (.ares i) (.empty, false, true, false)

/-- The next event is not a reset. -/
def State.noReset (s : State) : Prop := ∀ v rest, s.inputs ≠ .rst v :: rest

/-- The next event is not a reset and does not load slot `i`. -/
def State.keepsContent (i : Slot) (s : State) : Prop :=
  s.noReset ∧ ¬(s.inputs.head? = some .seq ∧ s.blk.ph = .write ∧ s.blk.tgt = i)

/-- A run from one state to another in which `P` holds before every step. -/
inductive RunWhile (P : State → Prop) : State → State → Prop
  | refl (s : State) : RunWhile P s s
  | cons {s t u : State} (h : P s) (hs : step s = .next t) (ht : RunWhile P t u) : RunWhile P s u

/-- The next event, taken off the schedule. -/
def State.advance (s : State) : State := { s with inputs := s.inputs.tail }

/-- How many SEQ steps a `TX` in the given phase can still take, holds aside (R159, 70_reset_and_hazards.md R237). -/
def Phase.stepsLeft : Phase → Nat
  | .chk0 => 6
  | .chk1 => 5
  | .chk2 => 4
  | .abort => 3
  | .wait => 2
  | .write => 1
  | .idle | .halt => 0

end Sys2Proof.Machine
end

