-- ==== Sys2Proof/Certificates/Slice0/Obligations.lean ====
section
/-! DEFINITION. The statements for the provers, each from the rules of spec/ its docstring names. A statement about a
free choice (the schedule, FREE_PICK, the unspecified reset values) holds for every value of it. -/

open Sys2Proof
open Sys2Proof.Machine

/-! ### Encoding -/

/-- When the head of the schedule carries a word that decodes to `i`, the step is `exec i` on the rest of the schedule;
and a word of the opcode table scheduled by `withFetchWord` is run by the very next step (R72, R84, R87). -/
def Obligations.StepRunsDecodedWord : Prop :=
  (∀ (s : State) (fw : FetchWord) (i : Instr) (rest : List Input),
    s.inputs = inputOf fw :: rest → decode fw = .ok i → step s = exec i { s with inputs := rest }) ∧
  (∀ (s : State) (nbits w : Nat) (i : Instr),
    decodeTableWord nbits w = some i → step (s.withFetchWord nbits w) = exec i s)

/-- The words of R85 and R87, written out, decode to their operations. -/
def Obligations.SpecWordsDecode : Prop :=
  decode (.cmd 0x00000000) = .ok .nop ∧ decode (.cmd 0x00000001) = .ok .mkstd ∧
  decode (.cmd 0x00000002) = .ok .mkext ∧ decode (.cmd 0x00000003) = .ok .setrtr ∧
  decode (.cmd 0x00000004) = .ok .decid ∧ decode (.cmd 0x00000005) = .ok .cmp ∧
  decode (.cmd 0x00000006) = .ok (.mkdata .fa) ∧ decode (.cmd 0x00000016) = .ok (.mkdata .fb) ∧
  decode (.cmd 0x00000007) = .ok (.mkrmt .fa) ∧ decode (.cmd 0x00000017) = .ok (.mkrmt .fb) ∧
  decode (.cmd 0x00000008) = .ok .feq ∧ decode (.cmd 0x00000009) = .ok .fcmp ∧
  decode (.cmd 0x0000000A) = .ok .tx ∧ decode (.cmd 0x0000000B) = .ok .idle ∧
  decode (.busEvent 0) = .ok .bstart ∧ decode (.busEvent 1) = .ok .bdone

/-- Decoder and encoder agree in both directions: a word means `i` exactly when it is the encoding of `i`, so no legal
word has two meanings and no bit of it is dropped (R84 to R87). -/
def Obligations.DecodeEncodeAgree : Prop :=
  ∀ (fw : FetchWord) (i : Instr), i.wellFormed = true → (decode fw = .ok i ↔ encode i = fw)

/-- R86: every one of the 2^32 command words is one of the 14 legal words, or the step that writes it to `CMD` raises
`Fatal(E_ILLCMD)`, changes nothing else and halts the sequencer; `RSTAT` then reads `0x00710006`. -/
def Obligations.EveryCommandWordLegalOrFatal : Prop :=
  ∀ (w : Word),
    (∃ i : Instr, decode (.cmd w) = .ok i ∧ w ∈ ([0x0, 0x1, 0x2, 0x3, 0x4, 0x5, 0x6, 0x16, 0x7, 0x17, 0x8, 0x9, 0xA, 0xB] : List Word)) ∨
    (w ∉ ([0x0, 0x1, 0x2, 0x3, 0x4, 0x5, 0x6, 0x16, 0x7, 0x17, 0x8, 0x9, 0xA, 0xB] : List Word) ∧
      (w.extractLsb' 5 27 ≠ 0 ∨ 0xC ≤ w.toNat % 16 ∨ (w.getLsbD 4 = true ∧ w.toNat % 16 ≠ 6 ∧ w.toNat % 16 ≠ 7)) ∧
      ∀ (s : State) (rest : List Input), s.blk.accepting → s.inputs = .host (.write 0 .word w) :: rest →
        ∃ t : State, step s = .next t ∧ t.blk.rstatWord = 0x00710006 ∧
          t = { s with inputs := rest, blk := { s.blk with
            rs := { Rstat.cleared with err := true, ecode := .illCmd }, ph := .halt } })

/-! ### The identifier word and the priority order -/

/-- R81, R82: the canonical words are exactly the encodings of a standard or an extended identifier with a remote flag,
each for exactly one triple of kind, number and flag; `canon` is idempotent and clears bit 0 always and bits 20:3 of a standard word, nothing else. -/
def Obligations.CanonicalWordsAreEncodings : Prop :=
  let inRange (extended : Bool) (n : Nat) : Prop := n ≤ if extended then 0x1FFFFFFF else 0x7FF
  let word (extended : Bool) (n : Nat) (r : Bool) : Nat :=
    if extended then n * 8 + 4 + r.toNat * 2 else n * 2 ^ 21 + r.toNat * 2
  (∀ w : Word, isCanonical w = true ↔ ∃ k n r, inRange k n ∧ w.toNat = word k n r) ∧
  (∀ k n r k' n' r', inRange k n → inRange k' n' → word k n r = word k' n' r' → k = k' ∧ n = n' ∧ r = r') ∧
  (∀ w : Word, canon (canon w) = canon w) ∧
  (∀ (w : Word) (k : Nat), (canon w).getLsbD k =
    (w.getLsbD k && !(k == 0) && !(!w.getLsbD 2 && decide (3 ≤ k ∧ k ≤ 20))))

/-- R111: `dec` reads the named bits and ignores those `canon` clears. -/
def Obligations.DecReadsTheFields : Prop :=
  ∀ w : Word, dec w = dec (canon w) ∧ (dec w).ide = w.getLsbD 2 ∧ (dec w).rtr = w.getLsbD 1 ∧
    (dec w).base.toNat = w.toNat / 2 ^ 21 ∧
    (dec w).id.toNat = if w.getLsbD 2 then w.toNat / 8 else w.toNat / 2 ^ 21

/-- R116 in numbers read off the words: which of two identifiers wins arbitration. -/
def Obligations.PriorityByNumbers : Prop :=
  ∀ a b : Word,
    let num (w : Word) : Nat := if w.getLsbD 2 then w.toNat / 8 else w.toNat / 2 ^ 21
    let base (w : Word) : Nat := w.toNat / 2 ^ 21
    let wins (x y : Word) : Prop :=
      (x.getLsbD 2 = y.getLsbD 2 ∧ (num x < num y ∨ (num x = num y ∧ x.getLsbD 1 = false ∧ y.getLsbD 1 = true))) ∨
      (x.getLsbD 2 = false ∧ y.getLsbD 2 = true ∧ num x ≤ base y) ∨
      (x.getLsbD 2 = true ∧ y.getLsbD 2 = false ∧ base x < num y)
    (prioCmp a b = .higher ↔ wins a b) ∧ (prioCmp a b = .lower ↔ wins b a) ∧
    (prioCmp a b = .equal ↔ a.getLsbD 2 = b.getLsbD 2 ∧ num a = num b ∧ a.getLsbD 1 = b.getLsbD 1)

/-- R118: antisymmetry, equality through `canon`, transitivity and congruence, the two sentences of the source on
standard against extended and data against remote, and the two extreme words. Totality (a) is that `prioCmp` is a
function into the three values. -/
def Obligations.PriorityIsATotalOrder : Prop :=
  (∀ a b : Word, prioCmp a b = .higher ∨ prioCmp a b = .lower ∨ prioCmp a b = .equal) ∧
  (∀ a b : Word, (prioCmp a b = .higher ↔ prioCmp b a = .lower) ∧ (prioCmp a b = .equal ↔ prioCmp b a = .equal)) ∧
  (∀ a b : Word, prioCmp a b = .equal ↔ canon a = canon b) ∧
  (∀ a b c : Word, prioCmp a b = .higher → prioCmp b c = .higher → prioCmp a c = .higher) ∧
  (∀ a b c : Word, prioCmp a b = .equal → prioCmp a c = prioCmp b c) ∧
  (∀ a b : Word, a.getLsbD 2 = false → b.getLsbD 2 = true → a.extractLsb' 21 11 = b.extractLsb' 21 11 →
    prioCmp a b = .higher) ∧
  (∀ a b : Word, (dec a).ide = (dec b).ide → (dec a).id = (dec b).id → (dec a).rtr = false → (dec b).rtr = true →
    prioCmp a b = .higher) ∧
  (∀ w : Word, isCanonical w = true → w ≠ 0x00000000 → prioCmp 0x00000000 w = .higher) ∧
  (∀ w : Word, isCanonical w = true → w ≠ 0xFFFFFFFE → prioCmp w 0xFFFFFFFE = .higher)

/-- R119: the priority order is the order of the arbitration keys as unsigned numbers. -/
def Obligations.PriorityIsKeyOrder : Prop :=
  ∀ a b : Word, (prioCmp a b = .higher ↔ (key a).toNat < (key b).toNat) ∧
    (prioCmp a b = .equal ↔ key a = key b) ∧ (prioCmp a b = .lower ↔ (key b).toNat < (key a).toNat)

/-! ### The identifier commands -/

/-- R162: `NOP` clears the result fields and changes nothing else; while busy or halted it is ignored. -/
def Obligations.NopClearsResults : Prop :=
  ∀ s : State,
    (s.blk.accepting → exec .nop s = .next { s with blk := { s.blk with rs := .cleared } } ∧
      ({ s.blk with rs := Rstat.cleared } : Block).rstatWord = 0) ∧
    (¬s.blk.accepting → exec .nop s = .next s)

/-- R112: `MKSTD` completes; a number in range becomes the standard identifier word of a data frame, one above `0x7FF`
is rejected with code 2 and `RES` keeps its value; nothing else changes. -/
def Obligations.MkstdResult : Prop :=
  decode (.cmd 0x00000001) = .ok .mkstd ∧
  ∀ s : State, s.blk.accepting →
    (s.blk.opa.toNat ≤ 0x7FF → ∃ r : Word,
      exec .mkstd s = .next { s with blk := { s.blk with rs := .cleared, res := r } } ∧
      r = s.blk.opa <<< 21 ∧ r.toNat = s.blk.opa.toNat * 2 ^ 21 ∧ isCanonical r = true ∧ r.getLsbD 1 = false ∧ r.getLsbD 2 = false) ∧
    (0x7FF < s.blk.opa.toNat → ∃ t : State, exec .mkstd s = .next t ∧ t.blk.rstatWord = 0x00020004 ∧
      t = { s with blk := { s.blk with rs := { Rstat.cleared with err := true, ecode := .rangeStd } } })

/-- R113: `MKEXT` completes, as `MKSTD` with the 29-bit range and code 3. -/
def Obligations.MkextResult : Prop :=
  decode (.cmd 0x00000002) = .ok .mkext ∧
  ∀ s : State, s.blk.accepting →
    (s.blk.opa.toNat ≤ 0x1FFFFFFF → ∃ r : Word,
      exec .mkext s = .next { s with blk := { s.blk with rs := .cleared, res := r } } ∧
      r = (s.blk.opa <<< 3) ||| 0x4#32 ∧ r.toNat = s.blk.opa.toNat * 8 + 4 ∧ isCanonical r = true ∧ r.getLsbD 1 = false ∧ r.getLsbD 2 = true) ∧
    (0x1FFFFFFF < s.blk.opa.toNat → ∃ t : State, exec .mkext s = .next t ∧ t.blk.rstatWord = 0x00030004 ∧
      t = { s with blk := { s.blk with rs := { Rstat.cleared with err := true, ecode := .rangeExt } } })

/-- R114: `SETRTR` completes; the result is canonical, has the kind and number of `OPA` and the remote flag `OPB[0]`; a flag
the word already has gives `canon(OPA)`; nothing else changes. -/
def Obligations.SetrtrResult : Prop :=
  decode (.cmd 0x00000003) = .ok .setrtr ∧
  ∀ s : State, s.blk.accepting → ∃ r : Word,
    exec .setrtr s = .next { s with blk := { s.blk with rs := .cleared, res := r } } ∧
    r = (canon s.blk.opa &&& 0xFFFFFFFD#32) ||| (if s.blk.opb.getLsbD 0 then 2#32 else 0#32) ∧
    isCanonical r = true ∧ (dec r).ide = (dec s.blk.opa).ide ∧ (dec r).id = (dec s.blk.opa).id ∧
    (dec r).rtr = s.blk.opb.getLsbD 0 ∧ ((dec s.blk.opa).rtr = s.blk.opb.getLsbD 0 → r = canon s.blk.opa)

/-- R115: `DECID` completes for every word; `RES` is the number, `EXT` and `RTR` the two flags; nothing else changes. -/
def Obligations.DecidResult : Prop :=
  decode (.cmd 0x00000004) = .ok .decid ∧
  ∀ s : State, s.blk.accepting → ∃ r : Word,
    exec .decid s = .next { s with blk := { s.blk with
      res := r, rs := { Rstat.cleared with ext := s.blk.opa.getLsbD 2, rtr := s.blk.opa.getLsbD 1 } } } ∧
    r.toNat = (if s.blk.opa.getLsbD 2 then s.blk.opa.toNat / 8 else s.blk.opa.toNat / 2 ^ 21) ∧
    r.toNat ≤ (if s.blk.opa.getLsbD 2 then 0x1FFFFFFF else 0x7FF)

/-- R115, corner case: building an identifier and decoding it gives the number and the kind back, for every number in
range, as a script of host accesses. -/
def Obligations.ConstructThenDecode : Prop :=
  ∀ (s : State) (v : Word), s.blk.accepting →
    (v.toNat ≤ 0x7FF → ∃ t u : State, playLines (pseudoMkstd v) s = .next t ∧
      playLines (pseudoDecid t.blk.res) t = .next u ∧ u.blk.res = v ∧ u.blk.rs.ext = false ∧ u.blk.rs.rtr = false) ∧
    (v.toNat ≤ 0x1FFFFFFF → ∃ t u : State, playLines (pseudoMkext v) s = .next t ∧
      playLines (pseudoDecid t.blk.res) t = .next u ∧ u.blk.res = v ∧ u.blk.rs.ext = true ∧ u.blk.rs.rtr = false)

/-- R117: `CMP` completes for every pair of words; `ORD` reports the order and is the one field set. -/
def Obligations.CmpResult : Prop :=
  decode (.cmd 0x00000005) = .ok .cmp ∧
  ∀ s : State, s.blk.accepting → ∃ t : State, exec .cmp s = .next t ∧
    t = { s with blk := { s.blk with rs := { Rstat.cleared with ord := prioCmp s.blk.opa s.blk.opb } } } ∧
    (prioCmp s.blk.opa s.blk.opb = .equal → t.blk.rstatWord = 0x00000000) ∧
    (prioCmp s.blk.opa s.blk.opb = .higher → t.blk.rstatWord = 0x00000020) ∧
    (prioCmp s.blk.opa s.blk.opb = .lower → t.blk.rstatWord = 0x00000040)

/-! ### The frame commands -/

/-- R132: `MKDATA` completes; a length of at most 8 (all 32 bits of `OPB`) makes the selected register a well-formed data
frame with the bytes below the length kept and the others 0; a longer one is `Fatal(E_LEN_DATA)`; the other frame register
and everything else stay. -/
def Obligations.MkdataResult : Prop :=
  decode (.cmd 0x00000006) = .ok (.mkdata .fa) ∧ decode (.cmd 0x00000016) = .ok (.mkdata .fb) ∧
  ∀ (s : State) (x : FSel), s.blk.accepting →
    (s.blk.opb.toNat ≤ 8 → ∃ f : Frame,
      exec (.mkdata x) s = .next { s with blk := ({ s.blk with rs := .cleared } : Block).setFrame x f } ∧
      f.id = canon s.blk.opa &&& 0xFFFFFFFD#32 ∧ f.dlc.toNat = s.blk.opb.toNat ∧
      (∀ k : Nat, k < 8 → f.byte k = if k < s.blk.opb.toNat then (s.blk.frame x).byte k else 0) ∧
      f.isRemote = false ∧ f.wellFormed = true) ∧
    (8 < s.blk.opb.toNat → ∃ t : State, exec (.mkdata x) s = .next t ∧ t.blk.rstatWord = 0x00740006 ∧
      t = { s with blk := { s.blk with
        rs := { Rstat.cleared with err := true, ecode := .lenData }, ph := .halt } })

/-- R133: `MKRMT` completes; a requested length of at most 8 makes the selected register a well-formed remote frame with
data registers 0; a longer one is `Reject(E_LEN_RMT)`. -/
def Obligations.MkrmtResult : Prop :=
  decode (.cmd 0x00000007) = .ok (.mkrmt .fa) ∧ decode (.cmd 0x00000017) = .ok (.mkrmt .fb) ∧
  ∀ (s : State) (x : FSel), s.blk.accepting →
    (s.blk.opb.toNat ≤ 8 → ∃ f : Frame,
      exec (.mkrmt x) s = .next { s with blk := ({ s.blk with rs := .cleared } : Block).setFrame x f } ∧
      f.id = canon s.blk.opa ||| 0x2#32 ∧ f.dlc.toNat = s.blk.opb.toNat ∧ f.dl = 0 ∧ f.dh = 0 ∧
      f.isRemote = true ∧ f.wellFormed = true) ∧
    (8 < s.blk.opb.toNat → ∃ t : State, exec (.mkrmt x) s = .next t ∧ t.blk.rstatWord = 0x00050004 ∧
      t = { s with blk := { s.blk with rs := { Rstat.cleared with err := true, ecode := .lenRmt } } })

/-- R135: when two frames are equal, clause by clause. -/
def Obligations.FrameEqualityMeaning : Prop :=
  ∀ a b : Frame, feq a b = true ↔
    canon a.id = canon b.id ∧ a.dlc = b.dlc ∧
      (a.id.getLsbD 1 = false → ∀ k : Nat, k < min a.dlc.toNat 8 → a.byte k = b.byte k)

/-- R136, corner cases: `feq` is an equivalence, frames equal under it compare `EQUAL`, and on well-formed data frames of
equal identifier and length it is equality of all eight bytes (R135). -/
def Obligations.FrameEqualityIsAnEquivalence : Prop :=
  (∀ a : Frame, feq a a = true) ∧ (∀ a b : Frame, feq a b = true → feq b a = true) ∧
  (∀ a b c : Frame, feq a b = true → feq b c = true → feq a c = true) ∧
  (∀ a b : Frame, feq a b = true → prioCmp a.id b.id = .equal) ∧
  (∀ a b : Frame, a.wellFormed = true → b.wellFormed = true → a.isRemote = false → (feq a b = true ↔ a = b))

/-- R136: `FEQ` completes; `EQ` is the one field set. -/
def Obligations.FeqResult : Prop :=
  decode (.cmd 0x00000008) = .ok .feq ∧
  ∀ s : State, s.blk.accepting → ∃ t : State, exec .feq s = .next t ∧
    t = { s with blk := { s.blk with rs := { Rstat.cleared with eq := feq s.blk.fa s.blk.fb } } } ∧
    t.blk.rstatWord = if feq s.blk.fa s.blk.fb then 0x00000080 else 0x00000000

/-- R137: `FCMP` completes; `ORD` compares the two identifiers; length and payload play no part. -/
def Obligations.FcmpResult : Prop :=
  decode (.cmd 0x00000009) = .ok .fcmp ∧
  ∀ s : State, s.blk.accepting → ∃ t : State, exec .fcmp s = .next t ∧
    t = { s with blk := { s.blk with rs := { Rstat.cleared with ord := prioCmp s.blk.fa.id s.blk.fb.id } } } ∧
    (prioCmp s.blk.fa.id s.blk.fb.id = .equal → t.blk.rstatWord = 0x00000000) ∧
    (prioCmp s.blk.fa.id s.blk.fb.id = .higher → t.blk.rstatWord = 0x00000020) ∧
    (prioCmp s.blk.fa.id s.blk.fb.id = .lower → t.blk.rstatWord = 0x00000040)

/-- R110 and its counterpart for the frame commands: no command but `TX` changes a slot, an age bit, `EV`, `SEQ.snap`,
`SEQ.tgt`, `OPA` or `OPB`, the phase changes only where `MKDATA` halts on a length above 8 (R132), and the schedule,
FREE_PICK and the last read stay. -/
def Obligations.CommandsLeaveSlotsAlone : Prop :=
  ∀ (s t : State) (i : Instr),
    (i = .nop ∨ i = .mkstd ∨ i = .mkext ∨ i = .setrtr ∨ i = .decid ∨ i = .cmp ∨ (∃ x, i = .mkdata x) ∨
      (∃ x, i = .mkrmt x) ∨ i = .feq ∨ i = .fcmp ∨ i = .idle) →
    exec i s = .next t →
      (∀ j, t.blk.slot j = s.blk.slot j) ∧ t.blk.age = s.blk.age ∧ t.blk.ev = s.blk.ev ∧ t.blk.snap = s.blk.snap ∧
      t.blk.tgt = s.blk.tgt ∧ t.blk.opa = s.blk.opa ∧ t.blk.opb = s.blk.opb ∧
      ((i ≠ .mkstd ∧ i ≠ .mkext ∧ i ≠ .setrtr ∧ i ≠ .decid) → t.blk.res = s.blk.res) ∧
      ((i ≠ .mkdata .fa ∧ i ≠ .mkrmt .fa) → t.blk.fa = s.blk.fa) ∧
      ((i ≠ .mkdata .fb ∧ i ≠ .mkrmt .fb) → t.blk.fb = s.blk.fb) ∧
      (t.blk.ph = s.blk.ph ∨ ((∃ x, i = .mkdata x) ∧ s.blk.accepting ∧ 8 < s.blk.opb.toNat ∧ t.blk.ph = .halt)) ∧
      t.inputs = s.inputs ∧ t.pick = s.pick ∧ t.rdata = s.rdata

/-! ### The mailbox commands and the steps of the other agents -/

/-- R151: the first phase of `TX` completes: a length above 8 is fatal and touches no slot; otherwise `TME` and `CODE` are
sampled, and the next phase is `WRITE` when a slot is empty (the target is then an empty slot), else `CHK0`. -/
def Obligations.TxFirstPhase : Prop :=
  decode (.cmd 0x0000000A) = .ok .tx ∧
  ∀ s : State, s.blk.accepting →
    (s.blk.fa.dlc.toNat ≤ 8 → ∃ t : State, exec .tx s = .next t ∧
      t = { s with blk := { s.blk with
        rs := .cleared, snap := s.blk.tme, tgt := s.blk.code s.pick, ph := t.blk.ph } } ∧
      ((∃ i, (s.blk.slot i).st = .empty) → t.blk.ph = .write ∧ (s.blk.slot t.blk.tgt).st = .empty) ∧
      ((∀ i, (s.blk.slot i).st ≠ .empty) → t.blk.ph = .chk0)) ∧
    (8 < s.blk.fa.dlc.toNat → ∃ t : State, exec .tx s = .next t ∧ t.blk.rstatWord = 0x00740006 ∧
      t = { s with blk := { s.blk with
        rs := { Rstat.cleared with err := true, ecode := .lenData }, ph := .halt } })

/-- R161: `IDLE` completes; `IDLEF` says whether all three slots are empty. -/
def Obligations.IdleResult : Prop :=
  decode (.cmd 0x0000000B) = .ok .idle ∧
  ∀ s : State, s.blk.accepting → ∃ t : State, exec .idle s = .next t ∧
    t = { s with blk := { s.blk with rs := { Rstat.cleared with idlef := t.blk.rs.idlef } } } ∧
    (t.blk.rs.idlef = true ↔ ∀ i, (s.blk.slot i).st = .empty) ∧
    t.blk.rstatWord = if t.blk.rs.idlef then 0x00000100 else 0x00000000

/-- R165, R167: where `SEL` is a slot, `BSTART` makes that slot `INFLIGHT` and changes nothing else; where it is none, the
event is ignored. -/
def Obligations.BstartResult : Prop :=
  decode (.busEvent 0) = .ok .bstart ∧
  ∀ s : State,
    (∀ i, s.blk.sel = some i → ∃ t : State, exec .bstart s = .next t ∧
      t = { s with blk := s.blk.setSlot i { s.blk.slot i with st := .inflight } } ∧
      (s.blk.slot i).st = .pending ∧ (s.blk.slot i).abrq = false ∧ (∀ j, (s.blk.slot j).st ≠ .inflight)) ∧
    (s.blk.sel = none → exec .bstart s = .next s)

/-- R166, R167: with slot `i` the one in flight, `BDONE` empties it, marks it completed and sent and keeps its content;
nothing else changes; where no slot is in flight, the event is ignored. -/
def Obligations.BdoneResult : Prop :=
  decode (.busEvent 1) = .ok .bdone ∧
  ∀ s : State,
    (∀ i, (s.blk.slot i).st = .inflight → (∀ j, (s.blk.slot j).st = .inflight → j = i) →
      exec .bdone s = .next { s with
        blk := s.blk.setSlot i { s.blk.slot i with st := .empty, abrq := false, rqcp := true, txok := true } }) ∧
    ((∀ i, (s.blk.slot i).st ≠ .inflight) → exec .bdone s = .next s)

/-- R164: `ARES(i)`, enabled when slot `i` is `PENDING` with `abrq` set, empties it, marks it completed and not sent, keeps
its content and changes nothing else. -/
def Obligations.AresResult : Prop :=
  ∀ (s : State) (i : Slot) (rest : List Input), s.inputs = .ares i :: rest →
    (s.blk.slot i).st = .pending → (s.blk.slot i).abrq = true →
      step s = .next { s with
        inputs := rest
        blk := s.blk.setSlot i { s.blk.slot i with st := .empty, abrq := false, rqcp := true, txok := false } }

/-- R152 to R154: a check phase ends the `TX` with `RETRY` when its slot, read live, is non-empty and not strictly
outranked by `FA`; otherwise it goes on. Nothing else changes. -/
def Obligations.CheckPhases : Prop :=
  ∀ (s : State) (rest : List Input) (i : Slot) (nextPhase : Phase), s.inputs = .seq :: rest →
    ((s.blk.ph = .chk0 ∧ i = .s0 ∧ nextPhase = .chk1) ∨ (s.blk.ph = .chk1 ∧ i = .s1 ∧ nextPhase = .chk2) ∨
      (s.blk.ph = .chk2 ∧ i = .s2 ∧ nextPhase = .abort)) →
    ((s.blk.slot i).st ≠ .empty ∧ prioCmp s.blk.fa.id (s.blk.slot i).content.idWord ≠ .higher →
      step s = .next { s with inputs := rest, blk := { s.blk with rs := { s.blk.rs with retry := true }, ph := .idle } }) ∧
    ((s.blk.slot i).st = .empty ∨ prioCmp s.blk.fa.id (s.blk.slot i).content.idWord = .higher →
      step s = .next { s with inputs := rest, blk := { s.blk with ph := nextPhase } })

/-- R155: phase `ABORT` requests the abort of a non-empty target, has no effect on an empty one, and goes to `WAIT`. -/
def Obligations.AbortPhase : Prop :=
  ∀ (s : State) (rest : List Input), s.inputs = .seq :: rest → s.blk.ph = .abort →
    ((s.blk.slot s.blk.tgt).st ≠ .empty →
      step s = .next { s with
        inputs := rest
        blk := { s.blk.setSlot s.blk.tgt { s.blk.slot s.blk.tgt with abrq := true } with ph := .wait } }) ∧
    ((s.blk.slot s.blk.tgt).st = .empty →
      step s = .next { s with inputs := rest, blk := { s.blk with ph := .wait } })

/-- R156: phase `WAIT` is held while the abort is unresolved; then the aborted frame is read back into `EV` with bit 0 of
its identifier clear, or, if it was sent, no eviction is reported and `EV` stays. -/
def Obligations.WaitPhase : Prop :=
  ∀ (s : State) (rest : List Input), s.inputs = .seq :: rest → s.blk.ph = .wait →
    ((s.blk.slot s.blk.tgt).abrq = true → step s = .next { s with inputs := rest }) ∧
    ((s.blk.slot s.blk.tgt).abrq = false → (s.blk.slot s.blk.tgt).txok = false → ∃ f : Frame,
      step s = .next { s with inputs := rest, blk := { s.blk with
        ev := f, rs := { s.blk.rs with evicted := true }, ph := .write } } ∧
      f.id.getLsbD 0 = false ∧ f.id.extractLsb' 1 31 = (s.blk.slot s.blk.tgt).content.id ∧
      f.dlc = (s.blk.slot s.blk.tgt).content.dlc ∧ f.dl = (s.blk.slot s.blk.tgt).content.dl ∧
      f.dh = (s.blk.slot s.blk.tgt).content.dh) ∧
    ((s.blk.slot s.blk.tgt).abrq = false → (s.blk.slot s.blk.tgt).txok = true →
      step s = .next { s with inputs := rest, blk := { s.blk with ph := .write } })

/-- R157: phase `WRITE` loads the target with `FA` (the identifier through `canon`), makes it `PENDING` and the youngest
slot, reports it in `MBX` and ends the `TX`; the other slots and everything else stay. -/
def Obligations.WritePhase : Prop :=
  ∀ (s : State) (rest : List Input), s.inputs = .seq :: rest → s.blk.ph = .write →
    ∃ t : State, step s = .next t ∧
      (t.blk.slot s.blk.tgt).flags = (.pending, false, false, false) ∧
      (t.blk.slot s.blk.tgt).content.idWord = canon s.blk.fa.id ∧
      (t.blk.slot s.blk.tgt).content.dlc = s.blk.fa.dlc ∧ (t.blk.slot s.blk.tgt).content.dl = s.blk.fa.dl ∧
      (t.blk.slot s.blk.tgt).content.dh = s.blk.fa.dh ∧
      (∀ j, j ≠ s.blk.tgt → t.blk.slot j = s.blk.slot j ∧ t.blk.age.older j s.blk.tgt = true) ∧
      (∀ j k, j ≠ s.blk.tgt → k ≠ s.blk.tgt → t.blk.age.older j k = s.blk.age.older j k) ∧
      t = { s with inputs := rest, blk := { s.blk with
        mb0 := t.blk.mb0, mb1 := t.blk.mb1, mb2 := t.blk.mb2, age := t.blk.age,
        rs := { s.blk.rs with mbx := s.blk.tgt }, ph := .idle } }

/-- R160, R164: SEQ has no step in `IDLE` and `HALT` and has one in every other phase, and `ARES(i)` has one only where it is
enabled. That the model refuses a scheduled step that is not enabled is its own choice (log entry 9). -/
def Obligations.DisabledStepsAreRefused : Prop :=
  (∀ (s : State) (rest : List Input), s.inputs = .seq :: rest →
    (s.blk.ph = .idle ∨ s.blk.ph = .halt → step s = .refused .stepNotEnabled) ∧
    (s.blk.ph ≠ .idle → s.blk.ph ≠ .halt → ∃ t, step s = .next t)) ∧
  (∀ (s : State) (i : Slot) (rest : List Input), s.inputs = .ares i :: rest →
    ¬((s.blk.slot i).st = .pending ∧ (s.blk.slot i).abrq = true) → step s = .refused .stepNotEnabled)

/-- R159, R237: a `TX` takes at most six SEQ steps, holds aside: `RUN`, whatever MBC and BUS steps fall between, ends with
the `TX` ended or held in `WAIT`, and with none between it is never refused; and with any agent between, no step but an accepted command lengthens what is left, while every SEQ step that
is not held shortens it. -/
def Obligations.TxEndsInSixSteps : Prop :=
  (∀ (s : State) (between : List (List Between)), s.blk.ph.busy = true →
    (∀ t : State, run between s = .next t → t.blk.ph = .idle ∨ t.blk.held = true) ∧ ∃ t, run [] s = .next t) ∧
  (∀ (s t : State) (x : Input) (rest : List Input), s.inputs = x :: rest → s.blk.ph.busy = true → step s = .next t →
    t.blk.ph.stepsLeft ≤ s.blk.ph.stepsLeft ∧
    (x = .seq → s.blk.held = false → t.blk.ph.stepsLeft < s.blk.ph.stepsLeft)) ∧
  (∀ b : Block, b.ph.stepsLeft ≤ 6)

/-! ### Functions of the state -/

/-- R36: with a slot empty, `CODE` is an empty slot, for every FREE_PICK, and the one of lowest index for the default one; with
none empty (and the age bits in order, an invariant of the model) it is the slot that every other slot outranks. It is
never 3. -/
def Obligations.CodeIsEmptyOrLowest : Prop :=
  ∀ (p : FreePick) (b : Block),
    ((∃ i, (b.slot i).st = .empty) → (b.slot (b.code p)).st = .empty) ∧
    (∀ i, (b.slot i).st = .empty → (b.code .lowest).code.toNat ≤ i.code.toNat) ∧ (b.code p).code ≠ 3 ∧
    ((∀ i, (b.slot i).st ≠ .empty) → b.age.acyclic → ∀ j, j ≠ b.code p → b.outranks j (b.code p) = true)

/-- R35: on the slots, with the age bits in order (an invariant of the model), the extended order is a strict total
order. -/
def Obligations.ExtendedOrderIsStrictTotal : Prop :=
  ∀ b : Block, b.age.acyclic →
    (∀ i, b.outranks i i = false) ∧ (∀ i j, i ≠ j → (b.outranks i j = true ↔ b.outranks j i = false)) ∧
    (∀ i j k, b.outranks i j = true → b.outranks j k = true → b.outranks i k = true)

/-- R37: `SEL` is none exactly when a slot is in flight or no slot is eligible (with the age bits in order, an invariant of
the model); when it is a slot, that slot is eligible and outranks every other eligible slot. It is shown to the bus engine
and to the host. -/
def Obligations.SelIsFirstEligible : Prop :=
  ∀ b : Block, b.age.acyclic →
    (∀ p : FreePick, (b.busPort.selValid = true ↔ b.sel ≠ none) ∧ ((b.statusWord p).getLsbD 26 = true ↔ b.sel ≠ none) ∧
      ∀ i, b.sel = some i → b.busPort.selIdx = i.code ∧ (b.statusWord p).extractLsb' 24 2 = i.code) ∧
    (b.sel = none ↔ (∃ i, (b.slot i).st = .inflight) ∨
      ∀ i, ¬((b.slot i).st = .pending ∧ (b.slot i).abrq = false)) ∧
    (∀ i, b.sel = some i → (b.slot i).st = .pending ∧ (b.slot i).abrq = false ∧
      ∀ j, j ≠ i → (b.slot j).st = .pending → (b.slot j).abrq = false → b.outranks i j = true)

/-- R38, R39: the fields of the two status words at their places, with the codes of R24, R39, R40 and R191 as numbers, and the
reserved bits 0. -/
def Obligations.StatusWordLayouts : Prop :=
  ∀ (p : FreePick) (b : Block),
    (b.rstatWord.getLsbD 0 = b.ph.busy ∧ (b.rstatWord.getLsbD 1 = true ↔ b.ph = .halt) ∧
      b.rstatWord.getLsbD 2 = b.rs.err ∧ b.rstatWord.getLsbD 3 = b.rs.retry ∧ b.rstatWord.getLsbD 4 = b.rs.evicted ∧
      (b.rs.ord = .equal → b.rstatWord.extractLsb' 5 2 = 0) ∧ (b.rs.ord = .higher → b.rstatWord.extractLsb' 5 2 = 1) ∧
      (b.rs.ord = .lower → b.rstatWord.extractLsb' 5 2 = 2) ∧ b.rstatWord.getLsbD 7 = b.rs.eq ∧
      b.rstatWord.getLsbD 8 = b.rs.idlef ∧ b.rstatWord.getLsbD 9 = b.rs.ext ∧ b.rstatWord.getLsbD 10 = b.rs.rtr ∧
      b.rstatWord.getLsbD 11 = false ∧ b.rstatWord.extractLsb' 12 2 = b.rs.mbx.code ∧
      b.rstatWord.extractLsb' 14 2 = 0 ∧
      (∀ e n, (e, n) ∈ ([(.none, 0), (.illCmd, 1), (.rangeStd, 2), (.rangeExt, 3), (.lenData, 4), (.lenRmt, 5)] :
        List (ErrorCode × BitVec 4)) → b.rs.ecode = e → b.rstatWord.extractLsb' 16 4 = n) ∧
      (∀ q n, (q, n) ∈ ([(.idle, 0), (.chk0, 1), (.chk1, 2), (.chk2, 3), (.abort, 4), (.wait, 5), (.write, 6),
        (.halt, 7)] : List (Phase × BitVec 3)) → b.ph = q → b.rstatWord.extractLsb' 20 3 = n) ∧
      b.rstatWord.extractLsb' 23 9 = 0) ∧
    (Slot.s0.code = 0 ∧ Slot.s1.code = 1 ∧ Slot.s2.code = 2) ∧
    ((b.statusWord p).extractLsb' 0 2 = (b.code p).code ∧ (b.statusWord p).extractLsb' 2 2 = 0 ∧
      (b.statusWord p).getLsbD 7 = false ∧ (b.statusWord p).getLsbD 11 = false ∧
      (b.statusWord p).getLsbD 15 = false ∧ (b.statusWord p).getLsbD 19 = false ∧
      (b.statusWord p).getLsbD 23 = false ∧ (b.statusWord p).extractLsb' 27 5 = 0 ∧
      ((b.statusWord p).getLsbD 26 = true ↔ b.sel.isSome = true) ∧
      (b.statusWord p).extractLsb' 24 2 = (b.sel.map Slot.code).getD 0 ∧
      ∀ i : Slot, ((b.statusWord p).getLsbD (4 + i.code.toNat) = true ↔ (b.slot i).st = .empty) ∧
        ((b.statusWord p).getLsbD (8 + i.code.toNat) = true ↔ (b.slot i).st = .inflight) ∧
        (b.statusWord p).getLsbD (12 + i.code.toNat) = (b.slot i).abrq ∧
        (b.statusWord p).getLsbD (16 + i.code.toNat) = (b.slot i).rqcp ∧
        (b.statusWord p).getLsbD (20 + i.code.toNat) = (b.slot i).txok)

/-- R44 (2): the bus engine is shown `SEL` and the frame of the slot in flight or, where none is, of the selected slot. -/
def Obligations.BusPortOutputs : Prop :=
  ∀ b : Block, (b.busPort.selValid = true ↔ b.sel.isSome = true) ∧
    (∀ i, b.sel = some i → b.busPort.selIdx = i.code ∧ b.busPort.frame = some (b.slot i).content.frame) ∧
    (∀ i, (b.slot i).st = .inflight → (∀ j, (b.slot j).st = .inflight → j = i) →
      b.busPort.frame = some (b.slot i).content.frame)

/-! ### The host port -/

/-- R66 with R61 to R63 and R71: a host access is refused with `PortFault` exactly when it is not 32 bits wide, is
misaligned, is unmapped, or writes a register the host may not write; every other access gives a next state. -/
def Obligations.PortFaultExactly : Prop :=
  ∀ (s : State) (a : Access) (rest : List Input), s.inputs = .host a :: rest →
    let n := a.off.toNat
    let bad : Prop := a.size ≠ .word ∨ n % 4 ≠ 0 ∨ n = 0x18 ∨ n = 0x1C ∨ 0x80 ≤ n ∨
      ((∃ off size v, a = .write off size v) ∧ (n = 0x04 ∨ n = 0x08 ∨ n = 0x0C ∨ 0x40 ≤ n))
    (bad → step s = .refused .portFault) ∧ (¬bad → ∃ t, step s = .next t)

/-- R65: a read changes nothing of the block; the port answers with the register's word, as it is in that step (R61). -/
def Obligations.ReadsHaveNoSideEffect : Prop :=
  ∀ (s t : State) (off : BitVec 8) (size : Size) (rest : List Input),
    s.inputs = .host (.read off size) :: rest → step s = .next t →
      t.blk = s.blk ∧ t.inputs = rest ∧ t.pick = s.pick ∧
      ∃ r, regAt off = some r ∧ t.rdata = some (s.blk.readReg s.pick r)

/-- R61: the registers stand at their offsets, and what a read of each returns. -/
def Obligations.RegisterMap : Prop :=
  ∀ (p : FreePick) (b : Block),
    let rd (n : Nat) : Option Word := (regAt (BitVec.ofNat 8 n)).map fun r => b.readReg p r
    rd 0x00 = some 0 ∧ rd 0x04 = some b.rstatWord ∧ rd 0x08 = some b.res ∧ rd 0x0C = some (b.statusWord p) ∧
    rd 0x10 = some b.opa ∧ rd 0x14 = some b.opb ∧
    (∀ k : Nat, ∀ f : Frame, (k = 0x20 ∧ f = b.fa) ∨ (k = 0x30 ∧ f = b.fb) ∨ (k = 0x40 ∧ f = b.ev) →
      rd k = some f.id ∧ rd (k + 4) = some (f.dlc.setWidth 32) ∧ rd (k + 8) = some f.dl ∧ rd (k + 12) = some f.dh) ∧
    (∀ i : Slot, let m := b.slot i; let k := 0x50 + 0x10 * i.code.toNat
      (∃ w : Word, rd k = some w ∧ w.extractLsb' 1 31 = m.content.id ∧ (w.getLsbD 0 = true ↔ m.st ≠ .empty)) ∧
      rd (k + 4) = some (m.content.dlc.setWidth 32) ∧ rd (k + 8) = some m.content.dl ∧
      rd (k + 12) = some m.content.dh)

/-- R69, R70: a write that is not ignored stores all 32 bits (a `DLC`: bits 3:0), and an immediately following read returns
what was stored; nothing else of the block changes. -/
def Obligations.WriteThenReadBack : Prop :=
  ∀ (s : State) (r : Reg) (v : Word) (rest : List Input), s.blk.accepting →
    (r = .opa ∨ r = .opb ∨ (∃ f, r = .fa f) ∨ ∃ f, r = .fb f) →
    s.inputs = (Line.wr r v).input :: (Line.rd r).input :: rest →
    ∃ t u : State, step s = .next t ∧ step t = .next u ∧
      (r ≠ .fa .dlc → r ≠ .fb .dlc → u.rdata = some v) ∧
      (r = .fa .dlc ∨ r = .fb .dlc → u.rdata = some (v &&& 0xF#32)) ∧
      (∀ q, q ≠ r → u.blk.readReg s.pick q = s.blk.readReg s.pick q) ∧ u.blk.age = s.blk.age ∧
      u.blk.snap = s.blk.snap ∧ u.blk.tgt = s.blk.tgt ∧ u.blk.ph = s.blk.ph

/-- R67, R68: while a `TX` is in progress or after a fatal error, a host write to a writable register changes nothing of the
block and is no error, and reads are served as usual. -/
def Obligations.WritesIgnoredWhileBusyOrHalted : Prop :=
  ∀ (s : State) (rest : List Input),
    (s.blk.rstatWord.getLsbD 0 = true ∨ s.blk.rstatWord.getLsbD 1 = true) →
    (∀ (r : Reg) (v : Word), (r = .cmd ∨ r = .opa ∨ r = .opb ∨ (∃ f, r = .fa f) ∨ ∃ f, r = .fb f) →
      s.inputs = (Line.wr r v).input :: rest → step s = .next { s with inputs := rest }) ∧
    (∀ r : Reg, s.inputs = (Line.rd r).input :: rest →
      step s = .next { s with inputs := rest, rdata := some (s.blk.readReg s.pick r) })

/-- R47: no host access changes a slot, an age bit or `EV`, whatever it writes and whatever state the block is in; only a
write to `CMD` changes `RES`, `RSTAT` or the sequencer. -/
def Obligations.HostNeverWritesSlots : Prop :=
  ∀ (s t : State) (a : Access) (rest : List Input), s.inputs = .host a :: rest → step s = .next t →
    (∀ i, t.blk.slot i = s.blk.slot i) ∧ t.blk.age = s.blk.age ∧ t.blk.ev = s.blk.ev ∧
    (a.off ≠ 0 → t.blk.res = s.blk.res ∧ t.blk.rs = s.blk.rs ∧ t.blk.ph = s.blk.ph ∧ t.blk.snap = s.blk.snap ∧
      t.blk.tgt = s.blk.tgt)

/-! ### Errors, halt, reset -/

/-- R193: which commands a `Reject` can end, and its whole effect: whenever an accepted command sets `ERR` without halting,
the command is `MKSTD`, `MKEXT` or `MKRMT`, and only `ERR` and `ECODE` are set beside the clearing. The next command is
accepted and acts as if the two were cleared (R200). -/
def Obligations.RejectTouchesOnlyRstat : Prop :=
  ∀ (s t : State) (i : Instr), s.blk.accepting → (i ≠ .bstart ∧ i ≠ .bdone) → exec i s = .next t →
    t.blk.rs.err = true → t.blk.ph ≠ .halt →
      (i = .mkstd ∨ i = .mkext ∨ ∃ x, i = .mkrmt x) ∧
      t = { s with blk := { s.blk with rs := { Rstat.cleared with err := true, ecode := t.blk.rs.ecode } } } ∧
      (t.blk.rs.ecode = .rangeStd ∨ t.blk.rs.ecode = .rangeExt ∨ t.blk.rs.ecode = .lenRmt) ∧ t.blk.accepting ∧
      ∀ j : Instr, j ≠ .bstart → j ≠ .bdone → exec j t = exec j { t with blk := { t.blk with rs := .cleared } }

/-- R194: whenever a step other than a reset halts the block, it is a host write to `CMD` of an illegal word, of `MKDATA` with
a length above 8, or of `TX` with `FA.DLC` above 8, and nothing changes but `ERR`,
`ECODE`, the cleared result fields and the phase; `RSTAT.FATAL` then reads 1 and `RSTAT.PH` 7. -/
def Obligations.FatalOnlyFromCommandWrites : Prop :=
  ∀ (s t : State) (x : Input) (rest : List Input), s.inputs = x :: rest → (∀ v, x ≠ .rst v) → step s = .next t →
    s.blk.ph ≠ .halt → t.blk.ph = .halt →
      (∃ w, x = .host (.write 0 .word w) ∧
        (((∀ i, decode (.cmd w) ≠ .ok i) ∧ t.blk.rs.ecode = .illCmd) ∨
          ((∃ f, decode (.cmd w) = .ok (.mkdata f)) ∧ 8 < s.blk.opb.toNat ∧ t.blk.rs.ecode = .lenData) ∨
          (decode (.cmd w) = .ok .tx ∧ 8 < s.blk.fa.dlc.toNat ∧ t.blk.rs.ecode = .lenData))) ∧
      s.blk.accepting ∧
      t = { s with inputs := rest, blk := { s.blk with
        rs := { Rstat.cleared with err := true, ecode := t.blk.rs.ecode }, ph := .halt } } ∧
      t.blk.rstatWord.getLsbD 1 = true ∧ t.blk.rstatWord.extractLsb' 20 3 = 7

/-- R195: the halt is left only by reset: along every run without a reset from a halted state, the phase stays `HALT`,
`RSTAT` and every register but the slots' bookkeeping keep their values, and the slots only empty. -/
def Obligations.HaltEndsOnlyByReset : Prop :=
  ∀ s t : State, s.blk.ph = .halt → RunWhile State.noReset s t →
    t.blk.ph = .halt ∧ t.blk.rs = s.blk.rs ∧ t.blk.rstatWord = s.blk.rstatWord ∧ t.blk.opa = s.blk.opa ∧
    t.blk.opb = s.blk.opb ∧ t.blk.fa = s.blk.fa ∧ t.blk.fb = s.blk.fb ∧ t.blk.res = s.blk.res ∧
    t.blk.ev = s.blk.ev ∧ t.blk.age = s.blk.age ∧
    (∀ i, (t.blk.slot i).content = (s.blk.slot i).content ∧
      ((s.blk.slot i).st = .empty → (t.blk.slot i).st = .empty))

/-- R221: the reset input, in any state, gives every element of the block its reset value, the unspecified ones whatever the
event carries; `RSTAT` then reads 0, `STATUS` reads `0x70` with `CODE` the pick among three, `CMD` reads 0, and so does bit 0
of each slot's `ID` word. -/
def Obligations.ResetValuesAndWords : Prop :=
  ∀ (s : State) (v : ResetValues) (rest : List Input), s.inputs = .rst v :: rest →
    ∃ t : State, step s = .next t ∧ t.inputs = rest ∧
      (∀ i, (t.blk.slot i).flags = (.empty, false, false, false)) ∧
      t.blk.mb0.content = v.c0 ∧ t.blk.mb1.content = v.c1 ∧ t.blk.mb2.content = v.c2 ∧
      t.blk.age = { a01 := false, a02 := false, a12 := false } ∧ t.blk.opa = v.opa ∧ t.blk.opb = v.opb ∧
      t.blk.fa = v.fa ∧ t.blk.fb = v.fb ∧ t.blk.res = v.res ∧ t.blk.ev = v.ev ∧ t.blk.rs = .cleared ∧
      t.blk.ph = .idle ∧ t.blk.snap = 0 ∧ t.blk.tgt = .s0 ∧ t.blk.rstatWord = 0 ∧
      t.blk.statusWord s.pick = 0x00000070#32 ||| (s.pick.pick true true true).code.setWidth 32 ∧
      FreePick.lowest.pick true true true = .s0 ∧ t.blk.readReg s.pick .cmd = 0 ∧
      ∀ i, (t.blk.readReg s.pick (.mb i .id)).getLsbD 0 = false

/-- R220: a reset happens in any state and gives every element of the block its reset value; and no other step of any agent
leaves `HALT`, clears `RSTAT.FATAL`, or empties a slot without setting `rqcp`. -/
def Obligations.OnlyResetLeavesHaltOrDropsAFrame : Prop :=
  (∀ (s : State) (v : ResetValues) (rest : List Input), s.inputs = .rst v :: rest →
    step s = .next { s with inputs := rest, blk := .resetWith v }) ∧
  (∀ (s t : State) (x : Input) (rest : List Input), s.inputs = x :: rest → (∀ v, x ≠ .rst v) → step s = .next t →
    (s.blk.ph = .halt → t.blk.ph = .halt) ∧
    (s.blk.rstatWord.getLsbD 1 = true → t.blk.rstatWord.getLsbD 1 = true) ∧
    (∀ i, (s.blk.slot i).st ≠ .empty → (t.blk.slot i).st = .empty → (t.blk.slot i).rqcp = true))

/-! ### Invariants and whole-machine rules -/

/-- The invariant holds after reset, whatever the unspecified values. -/
def Obligations.InvariantAtReset : Prop :=
  ∀ v : ResetValues, (Block.resetWith v).Inv

/-- Every step of every agent keeps the invariant (R43, R169, R170 and the order of the age bits). -/
def Obligations.StepKeepsInvariant : Prop :=
  ∀ s t : State, s.blk.Inv → step s = .next t → t.blk.Inv

/-- R43: after reset and after every run from there, under every schedule and FREE_PICK: (a) to (g). Clause (e) holds by the
types of `State` (log entry 6); the others are those of `InvariantAtReset` and `StepKeepsInvariant`. -/
def Obligations.SlotInvariantsAlwaysHold : Prop :=
  ∀ (v : ResetValues) (s t : State), s.blk = Block.resetWith v → RunWhile (fun _ => True) s t →
    (∀ i j, (t.blk.slot i).st = .inflight → (t.blk.slot j).st = .inflight → i = j) ∧
    (∀ i, (t.blk.slot i).abrq = true → (t.blk.slot i).st ≠ .empty) ∧
    (∀ i, (t.blk.slot i).st ≠ .empty → (t.blk.slot i).rqcp = false ∧ (t.blk.slot i).txok = false) ∧
    (∀ i, (t.blk.slot i).txok = true → (t.blk.slot i).rqcp = true) ∧
    ((∀ i, (t.blk.slot i).st.code ≠ 3) ∧ (t.blk.code t.pick).code ≠ 3 ∧ t.blk.rs.ord.code ≠ 3) ∧
    (∀ i, (t.blk.slot i).abrq = true → t.blk.ph = .wait ∧ t.blk.tgt = i) ∧
    (∀ i, (t.blk.slot i).everLoaded →
      (t.blk.slot i).content.dlc.toNat ≤ 8 ∧ isCanonical (t.blk.slot i).content.idWord = true)

/-- R168: in a state that meets the invariant, a step other than a reset leaves a slot's bookkeeping as it is, or makes one
of the moves of the slot state machine. -/
def Obligations.SlotsMoveOnlyByTheTable : Prop :=
  ∀ (s t : State) (x : Input) (rest : List Input) (i : Slot), s.blk.Inv → s.inputs = x :: rest →
    (∀ v, x ≠ .rst v) → step s = .next t →
      (t.blk.slot i).flags = (s.blk.slot i).flags ∨ SlotMove s.blk i x (t.blk.slot i).flags

/-- R169: a slot's content changes, in a step other than a reset, only in phase `WRITE` with that slot the target, and in a
state that meets the invariant the slot is then empty: a non-empty slot is never overwritten. -/
def Obligations.NonEmptySlotNeverOverwritten : Prop :=
  ∀ (s t : State) (x : Input) (rest : List Input) (i : Slot), s.blk.Inv → s.inputs = x :: rest →
    (∀ v, x ≠ .rst v) → step s = .next t →
      ((t.blk.slot i).content ≠ (s.blk.slot i).content → x = .seq ∧ s.blk.ph = .write ∧ s.blk.tgt = i) ∧
      (x = .seq → s.blk.ph = .write → (s.blk.slot s.blk.tgt).st = .empty)

/-- R170: in every state that meets the invariant, a step that sets `EVICTED` puts into `EV` a frame that the new frame
strictly outranks, and leaves the new frame as it is; so it is in every state that a run from reset reaches. -/
def Obligations.EvictedFrameIsStrictlyOutranked : Prop :=
  let evictsLower (t u : State) : Prop := t.blk.rs.evicted = false → u.blk.rs.evicted = true →
    prioCmp u.blk.fa.id u.blk.ev.id = .higher ∧ u.blk.fa = t.blk.fa
  (∀ t u : State, t.blk.Inv → step t = .next u → evictsLower t u) ∧
  (∀ (v : ResetValues) (s t u : State), s.blk = Block.resetWith v → RunWhile (fun _ => True) s t → step t = .next u →
    evictsLower t u)

/-- R172: a frame loaded into a slot by `WRITE` and later evicted from it is returned in `EV` unchanged, whatever happens
between: the identifier through `canon`, length and data field for field. -/
def Obligations.EvictedFrameReturnedUnchanged : Prop :=
  ∀ (s0 s1 s2 s3 : State) (r0 r2 : List Input) (i : Slot),
    s0.inputs = .seq :: r0 → s0.blk.ph = .write → s0.blk.tgt = i → step s0 = .next s1 →
    RunWhile (State.keepsContent i) s1 s2 →
    s2.inputs = .seq :: r2 → s2.blk.ph = .wait → s2.blk.tgt = i → (s2.blk.slot i).abrq = false →
    (s2.blk.slot i).txok = false → step s2 = .next s3 →
      s3.blk.rs.evicted = true ∧ s3.blk.ev = { s0.blk.fa with id := canon s0.blk.fa.id } ∧
      feq s3.blk.ev s0.blk.fa = true ∧ (isCanonical s0.blk.fa.id = true → s3.blk.ev = s0.blk.fa)

/-- R173: the first phase of a `TX` and its checks change no slot, no age bit, no `EV` and no operand register: so a `TX` that
ends with `RETRY` or `E_LEN_DATA` has changed only `RSTAT` and the sequencer's own state. -/
def Obligations.RetryAndRefusalChangeNoSlot : Prop :=
  ∀ s t : State,
    (exec .tx s = .next t ∨
      (∃ rest, s.inputs = .seq :: rest ∧ (s.blk.ph = .chk0 ∨ s.blk.ph = .chk1 ∨ s.blk.ph = .chk2) ∧ step s = .next t)) →
    t.blk = { s.blk with rs := t.blk.rs, ph := t.blk.ph, snap := t.blk.snap, tgt := t.blk.tgt } ∧
    (t.blk.rs.err = true → s.blk.accepting → t.blk.snap = s.blk.snap ∧ t.blk.tgt = s.blk.tgt)

/-- R171: from a state that meets the invariant with no `TX` in progress, when the bus engine sends everything with no other
agent between, the slots leave in the extended order: each slot started outranks every slot that still holds a frame, and
after three starts and completions all slots are empty. It assumes, as R166 asks such a claim to say, that a frame in flight
is sent: failure of a started frame is not modelled (log entry 13). -/
def Obligations.FramesLeaveInPriorityOrder : Prop :=
  ∀ b : Block, b.Inv → b.ph.busy = false → (∀ i, (b.slot i).st ≠ .inflight) →
    let next (c : Block) : Block := c.bstart.bdone
    (∀ n : Nat, ∀ i, (next^[n] b).sel = some i → ∀ j, j ≠ i → ((next^[n] b).slot j).st ≠ .empty →
      (next^[n] b).outranks i j = true ∧ b.outranks i j = true) ∧
    (∀ n : Nat, (next^[n] b).sel = none ↔ ∀ i, ((next^[n] b).slot i).st = .empty) ∧
    (∀ i, ((next^[3] b).slot i).st = .empty)

/-- R12, R73: FREE_PICK never changes, every step takes exactly one event off the schedule, and only a host read changes the
word the port answered. The three fields are the model's own (log entries 1, 4, 10). -/
def Obligations.StepKeepsTheModelsOwnFields : Prop :=
  ∀ s t : State, step s = .next t → t.pick = s.pick ∧ t.inputs = s.inputs.tail ∧
    ((∀ off size rest, s.inputs ≠ .host (.read off size) :: rest) → t.rdata = s.rdata)
end

