-- ==== Sys2Proof/Laws/Decode.lean ====
section
/-! SUPPORT. The decoder: a command word never decodes to a bus event, and a bus-event word always decodes. -/

namespace Sys2Proof

/-- The instruction is a command, not a bus event. -/
def Instr.isCommand : Instr → Bool
  | .bstart | .bdone => false
  | .nop | .mkstd | .mkext | .setrtr | .decid | .cmp | .mkdata _ | .mkrmt _ | .feq | .fcmp | .tx | .idle => true

theorem plainOp_eq_ok {i j : Instr} {f : BitVec 1} (h : plainOp i f = .ok j) : j = i := by
  unfold plainOp at h; split at h <;> simp_all

theorem isCommand_of_decode {w : Word} {i : Instr} (h : decode (.cmd w) = .ok i) : i.isCommand = true := by
  simp only [decode, decodeCommand] at h
  split at h
  · cases h
  · unfold decodeOp at h
    split at h <;> first
      | (have := plainOp_eq_ok h; subst this; rfl)
      | (cases h; rfl)
      | cases h

theorem decode_busEvent (e : BitVec 1) : decode (.busEvent e) = .ok (decodeBusEvent e) := rfl

theorem busEvent_cases (e : BitVec 1) : e = 0#1 ∨ e = 1#1 := by
  obtain ⟨⟨n, hn⟩⟩ := e
  rcases (by omega : n = 0 ∨ n = 1) with rfl | rfl
  · exact .inl rfl
  · exact .inr rfl

end Sys2Proof
end

