-- ==== Sys2Proof/Laws/State.lean ====
section
/-! SUPPORT. The small laws of the state: reading a slot or a frame register after a named update, one lemma per field
and update. -/

namespace Sys2Proof.Machine

/-! ### Slots -/

@[simp] theorem slot_s0 (b : Block) : b.slot .s0 = b.mb0 := rfl
@[simp] theorem slot_s1 (b : Block) : b.slot .s1 = b.mb1 := rfl
@[simp] theorem slot_s2 (b : Block) : b.slot .s2 = b.mb2 := rfl

theorem slot_forall {P : Slot → Prop} : (∀ i, P i) ↔ P .s0 ∧ P .s1 ∧ P .s2 :=
  ⟨fun h => ⟨h _, h _, h _⟩, fun h i => by cases i <;> simp [h]⟩

theorem slot_exists {P : Slot → Prop} : (∃ i, P i) ↔ P .s0 ∨ P .s1 ∨ P .s2 := by
  constructor
  · rintro ⟨i, h⟩; cases i <;> simp [h]
  · rintro (h | h | h) <;> exact ⟨_, h⟩

@[simp] theorem slot_setSlot (b : Block) (i j : Slot) (m : Mailbox) :
    (b.setSlot i m).slot j = if j = i then m else b.slot j := by cases i <;> cases j <;> rfl

@[simp] theorem setSlot_age (b : Block) (i : Slot) (m : Mailbox) : (b.setSlot i m).age = b.age := by cases i <;> rfl
@[simp] theorem setSlot_opa (b : Block) (i : Slot) (m : Mailbox) : (b.setSlot i m).opa = b.opa := by cases i <;> rfl
@[simp] theorem setSlot_opb (b : Block) (i : Slot) (m : Mailbox) : (b.setSlot i m).opb = b.opb := by cases i <;> rfl
@[simp] theorem setSlot_fa (b : Block) (i : Slot) (m : Mailbox) : (b.setSlot i m).fa = b.fa := by cases i <;> rfl
@[simp] theorem setSlot_fb (b : Block) (i : Slot) (m : Mailbox) : (b.setSlot i m).fb = b.fb := by cases i <;> rfl
@[simp] theorem setSlot_res (b : Block) (i : Slot) (m : Mailbox) : (b.setSlot i m).res = b.res := by cases i <;> rfl
@[simp] theorem setSlot_ev (b : Block) (i : Slot) (m : Mailbox) : (b.setSlot i m).ev = b.ev := by cases i <;> rfl
@[simp] theorem setSlot_rs (b : Block) (i : Slot) (m : Mailbox) : (b.setSlot i m).rs = b.rs := by cases i <;> rfl
@[simp] theorem setSlot_ph (b : Block) (i : Slot) (m : Mailbox) : (b.setSlot i m).ph = b.ph := by cases i <;> rfl
@[simp] theorem setSlot_snap (b : Block) (i : Slot) (m : Mailbox) : (b.setSlot i m).snap = b.snap := by cases i <;> rfl
@[simp] theorem setSlot_tgt (b : Block) (i : Slot) (m : Mailbox) : (b.setSlot i m).tgt = b.tgt := by cases i <;> rfl

/-- A slot read depends on the slots alone. -/
theorem slot_congr {b c : Block} (h : c.mb0 = b.mb0 ∧ c.mb1 = b.mb1 ∧ c.mb2 = b.mb2) (i : Slot) :
    c.slot i = b.slot i := by cases i <;> simp [h]

/-! ### Frame registers -/

@[simp] theorem frame_setFrame (b : Block) (x y : FSel) (f : Frame) :
    (b.setFrame x f).frame y = if y = x then f else b.frame y := by cases x <;> cases y <;> rfl

@[simp] theorem slot_setFrame (b : Block) (x : FSel) (f : Frame) (i : Slot) : (b.setFrame x f).slot i = b.slot i := by
  cases x <;> cases i <;> rfl
@[simp] theorem setFrame_age (b : Block) (x : FSel) (f : Frame) : (b.setFrame x f).age = b.age := by cases x <;> rfl
@[simp] theorem setFrame_opa (b : Block) (x : FSel) (f : Frame) : (b.setFrame x f).opa = b.opa := by cases x <;> rfl
@[simp] theorem setFrame_opb (b : Block) (x : FSel) (f : Frame) : (b.setFrame x f).opb = b.opb := by cases x <;> rfl
@[simp] theorem setFrame_res (b : Block) (x : FSel) (f : Frame) : (b.setFrame x f).res = b.res := by cases x <;> rfl
@[simp] theorem setFrame_ev (b : Block) (x : FSel) (f : Frame) : (b.setFrame x f).ev = b.ev := by cases x <;> rfl
@[simp] theorem setFrame_rs (b : Block) (x : FSel) (f : Frame) : (b.setFrame x f).rs = b.rs := by cases x <;> rfl
@[simp] theorem setFrame_ph (b : Block) (x : FSel) (f : Frame) : (b.setFrame x f).ph = b.ph := by cases x <;> rfl
@[simp] theorem setFrame_snap (b : Block) (x : FSel) (f : Frame) : (b.setFrame x f).snap = b.snap := by cases x <;> rfl
@[simp] theorem setFrame_tgt (b : Block) (x : FSel) (f : Frame) : (b.setFrame x f).tgt = b.tgt := by cases x <;> rfl

/-! ### The other named updates -/

@[simp] theorem clearResults_rs (b : Block) : b.clearResults.rs = .cleared := rfl
@[simp] theorem clearResults_age (b : Block) : b.clearResults.age = b.age := rfl
@[simp] theorem clearResults_opa (b : Block) : b.clearResults.opa = b.opa := rfl
@[simp] theorem clearResults_opb (b : Block) : b.clearResults.opb = b.opb := rfl
@[simp] theorem clearResults_fa (b : Block) : b.clearResults.fa = b.fa := rfl
@[simp] theorem clearResults_fb (b : Block) : b.clearResults.fb = b.fb := rfl
@[simp] theorem clearResults_res (b : Block) : b.clearResults.res = b.res := rfl
@[simp] theorem clearResults_ev (b : Block) : b.clearResults.ev = b.ev := rfl
@[simp] theorem clearResults_ph (b : Block) : b.clearResults.ph = b.ph := rfl
@[simp] theorem clearResults_snap (b : Block) : b.clearResults.snap = b.snap := rfl
@[simp] theorem clearResults_tgt (b : Block) : b.clearResults.tgt = b.tgt := rfl
@[simp] theorem slot_clearResults (b : Block) (i : Slot) : b.clearResults.slot i = b.slot i := by cases i <;> rfl
@[simp] theorem frame_clearResults (b : Block) (x : FSel) : b.clearResults.frame x = b.frame x := by cases x <;> rfl
@[simp] theorem raiseReject_age (e : ErrorCode) (b : Block) : (b.raiseReject e).age = b.age := rfl
@[simp] theorem raiseReject_opa (e : ErrorCode) (b : Block) : (b.raiseReject e).opa = b.opa := rfl
@[simp] theorem raiseReject_opb (e : ErrorCode) (b : Block) : (b.raiseReject e).opb = b.opb := rfl
@[simp] theorem raiseReject_fa (e : ErrorCode) (b : Block) : (b.raiseReject e).fa = b.fa := rfl
@[simp] theorem raiseReject_fb (e : ErrorCode) (b : Block) : (b.raiseReject e).fb = b.fb := rfl
@[simp] theorem raiseReject_res (e : ErrorCode) (b : Block) : (b.raiseReject e).res = b.res := rfl
@[simp] theorem raiseReject_ev (e : ErrorCode) (b : Block) : (b.raiseReject e).ev = b.ev := rfl
@[simp] theorem raiseReject_ph (e : ErrorCode) (b : Block) : (b.raiseReject e).ph = b.ph := rfl
@[simp] theorem raiseReject_snap (e : ErrorCode) (b : Block) : (b.raiseReject e).snap = b.snap := rfl
@[simp] theorem raiseReject_tgt (e : ErrorCode) (b : Block) : (b.raiseReject e).tgt = b.tgt := rfl
@[simp] theorem raiseReject_rs (e : ErrorCode) (b : Block) :
    (b.raiseReject e).rs = { b.rs with err := true, ecode := e } := rfl
@[simp] theorem slot_raiseReject (e : ErrorCode) (b : Block) (i : Slot) : (b.raiseReject e).slot i = b.slot i := by cases i <;> rfl
@[simp] theorem raiseFatal_age (e : ErrorCode) (b : Block) : (b.raiseFatal e).age = b.age := rfl
@[simp] theorem raiseFatal_opa (e : ErrorCode) (b : Block) : (b.raiseFatal e).opa = b.opa := rfl
@[simp] theorem raiseFatal_opb (e : ErrorCode) (b : Block) : (b.raiseFatal e).opb = b.opb := rfl
@[simp] theorem raiseFatal_fa (e : ErrorCode) (b : Block) : (b.raiseFatal e).fa = b.fa := rfl
@[simp] theorem raiseFatal_fb (e : ErrorCode) (b : Block) : (b.raiseFatal e).fb = b.fb := rfl
@[simp] theorem raiseFatal_res (e : ErrorCode) (b : Block) : (b.raiseFatal e).res = b.res := rfl
@[simp] theorem raiseFatal_ev (e : ErrorCode) (b : Block) : (b.raiseFatal e).ev = b.ev := rfl
@[simp] theorem raiseFatal_ph (e : ErrorCode) (b : Block) : (b.raiseFatal e).ph = .halt := rfl
@[simp] theorem raiseFatal_snap (e : ErrorCode) (b : Block) : (b.raiseFatal e).snap = b.snap := rfl
@[simp] theorem raiseFatal_tgt (e : ErrorCode) (b : Block) : (b.raiseFatal e).tgt = b.tgt := rfl
@[simp] theorem raiseFatal_rs (e : ErrorCode) (b : Block) :
    (b.raiseFatal e).rs = { b.rs with err := true, ecode := e } := rfl
@[simp] theorem slot_raiseFatal (e : ErrorCode) (b : Block) (i : Slot) : (b.raiseFatal e).slot i = b.slot i := by cases i <;> rfl

@[simp] theorem onBlock_blk (f : Block → Block) (s : State) : (s.onBlock f).blk = f s.blk := rfl
@[simp] theorem onBlock_inputs (f : Block → Block) (s : State) : (s.onBlock f).inputs = s.inputs := rfl
@[simp] theorem onBlock_pick (f : Block → Block) (s : State) : (s.onBlock f).pick = s.pick := rfl
@[simp] theorem onBlock_rdata (f : Block → Block) (s : State) : (s.onBlock f).rdata = s.rdata := rfl

@[simp] theorem emptied_content (x : Bool) (m : Mailbox) : (m.emptied x).content = m.content := rfl
@[simp] theorem emptied_st (x : Bool) (m : Mailbox) : (m.emptied x).st = .empty := rfl
@[simp] theorem emptied_abrq (x : Bool) (m : Mailbox) : (m.emptied x).abrq = false := rfl
@[simp] theorem emptied_rqcp (x : Bool) (m : Mailbox) : (m.emptied x).rqcp = true := rfl
@[simp] theorem emptied_txok (x : Bool) (m : Mailbox) : (m.emptied x).txok = x := rfl

@[simp] theorem loaded_content (f : Frame) : (Mailbox.loaded f).content = f.content := rfl
@[simp] theorem loaded_st (f : Frame) : (Mailbox.loaded f).st = .pending := rfl
@[simp] theorem loaded_abrq (f : Frame) : (Mailbox.loaded f).abrq = false := rfl
@[simp] theorem loaded_rqcp (f : Frame) : (Mailbox.loaded f).rqcp = false := rfl
@[simp] theorem loaded_txok (f : Frame) : (Mailbox.loaded f).txok = false := rfl

end Sys2Proof.Machine
end

