-- ==== Sys2Proof/Laws/Ops.lean ====
section
/-! SUPPORT. The shared operations: what accepting a command does, what the effect of each command may change, and the age
bits. -/

namespace Sys2Proof.Machine

/-- The block ignores the host's writes exactly when it accepts no command. -/
theorem ignoresWrites_eq_false_iff (b : Block) : b.ignoresWrites = false ↔ b.accepting := by
  unfold Block.ignoresWrites Block.accepting; cases b.ph <;> simp [Phase.busy, Phase.fatal]

theorem ignoresWrites_eq_true_iff (b : Block) : b.ignoresWrites = true ↔ ¬b.accepting := by
  rw [← ignoresWrites_eq_false_iff]; simp

theorem issue_of_accepting {b : Block} (h : b.accepting) (f : Block → Block) : b.issue f = f b.clearResults := by
  simp [Block.issue, (ignoresWrites_eq_false_iff b).2 h]

theorem issue_of_not_accepting {b : Block} (h : ¬b.accepting) (f : Block → Block) : b.issue f = b := by
  simp [Block.issue, (ignoresWrites_eq_true_iff b).2 h]

theorem writeReg_of_accepting {b : Block} (h : b.accepting) (v : Word) (r : Reg) :
    b.writeReg v r = b.storeReg v r := by simp [Block.writeReg, (ignoresWrites_eq_false_iff b).2 h]

theorem writeReg_of_not_accepting {b : Block} (h : ¬b.accepting) (v : Word) (r : Reg) : b.writeReg v r = b := by
  simp [Block.writeReg, (ignoresWrites_eq_true_iff b).2 h]

/-- What a stored host write leaves of the block: everything but the operand and frame registers. -/
theorem storeReg_frame (b : Block) (v : Word) (r : Reg) :
    b.storeReg v r = { b with
      opa := (b.storeReg v r).opa, opb := (b.storeReg v r).opb, fa := (b.storeReg v r).fa,
      fb := (b.storeReg v r).fb } := by cases r <;> rfl

/-- FREE_PICK picks a member of the set it is given, whatever its value (10_state.md R36). -/
theorem pick_mem (p : FreePick) {e : Slot → Bool} (h : ∃ i, e i = true) :
    e (p.pick (e .s0) (e .s1) (e .s2)) = true := by
  rw [slot_exists] at h
  obtain ⟨x, y, z, w⟩ := p
  cases h0 : e .s0 <;> cases h1 : e .s1 <;> cases h2 : e .s2 <;> simp_all [FreePick.pick] <;>
    first
      | (cases w <;> assumption)
      | (split <;> assumption)

/-- A freshly loaded slot is younger than the others, whose order stays (R28). -/
theorem older_youngest (a : Age) (t i j : Slot) :
    (a.youngest t).older i j = if i = j then false else if j = t then true else if i = t then false else a.older i j := by
  cases t <;> cases i <;> cases j <;> rfl

theorem youngest_acyclic {a : Age} (h : a.acyclic) (t : Slot) : (a.youngest t).acyclic := by
  obtain ⟨x, y, z⟩ := a
  revert h; unfold Age.acyclic; cases t <;> cases x <;> cases y <;> cases z <;> decide

/-- Two different slots are ordered one way (R34). -/
theorem older_swap (a : Age) {i j : Slot} (h : i ≠ j) : a.older i j = !a.older j i := by
  revert h; cases i <;> cases j <;> simp [Age.older]

end Sys2Proof.Machine
end

