-- ==== Sys2Proof/Laws/PerInstr.lean ====
section
/-! SUPPORT. A law of every instruction as syntax, one lemma for each constructor: the reserved bits 31:5 of its command
word are 0 (30_encoding.md R84); a bus event has no command word. -/

namespace Sys2Proof.Laws.EncodeLegal

/-- Every command word the encoder gives for the instruction has its reserved bits 0. -/
def Statement (i : Instr) : Prop := ∀ w : Word, encode i = .cmd w → w.extractLsb' 5 27 = 0#27

theorem of_commandWord {i : Instr} {op : BitVec 4} {f : BitVec 1} (h : encode i = .cmd (commandWord op f)) :
    Statement i := by
  intro w hw
  rw [h] at hw
  cases hw
  ext k hk
  have h4 : ¬5 + k < 4 := by omega
  have h1 : ¬5 + k - 4 < 1 := by omega
  have hb : (0#27 ++ f ++ op : BitVec (27 + 1 + 4)).getLsbD (5 + k) = false := by
    rw [BitVec.getLsbD_append, if_neg h4, BitVec.getLsbD_append, if_neg h1]; exact BitVec.getLsbD_zero
  simpa [commandWord] using hb

theorem nop : Statement .nop := of_commandWord rfl
theorem mkstd : Statement .mkstd := of_commandWord rfl
theorem mkext : Statement .mkext := of_commandWord rfl
theorem setrtr : Statement .setrtr := of_commandWord rfl
theorem decid : Statement .decid := of_commandWord rfl
theorem cmp : Statement .cmp := of_commandWord rfl
theorem mkdata (f : FSel) : Statement (.mkdata f) := of_commandWord rfl
theorem mkrmt (f : FSel) : Statement (.mkrmt f) := of_commandWord rfl
theorem feq : Statement .feq := of_commandWord rfl
theorem fcmp : Statement .fcmp := of_commandWord rfl
theorem tx : Statement .tx := of_commandWord rfl
theorem idle : Statement .idle := of_commandWord rfl
theorem bstart : Statement .bstart := fun _ h => by cases h
theorem bdone : Statement .bdone := fun _ h => by cases h

end Sys2Proof.Laws.EncodeLegal
end

