-- ==== Sys2Proof/Laws/Step.lean ====
section
/-! SUPPORT. What a step can do, said once: every next state is one of the moves below. Proofs about steps cite
`step_move` instead of unfolding the step. -/

namespace Sys2Proof.Machine

/-- The effect of a command on a block whose result fields have been cleared; of a bus event, nothing (it is no
command). -/
def effectOf (p : FreePick) : Instr → Block → Block
  | .nop => nopEffect
  | .mkstd => mkstdEffect
  | .mkext => mkextEffect
  | .setrtr => setrtrEffect
  | .decid => decidEffect
  | .cmp => cmpEffect
  | .mkdata x => mkdataEffect x
  | .mkrmt x => mkrmtEffect x
  | .feq => feqEffect
  | .fcmp => fcmpEffect
  | .tx => txEffect p
  | .idle => idleEffect
  | .bstart | .bdone => id

/-- Every command is the shared command step with its own effect. -/
theorem exec_command {i : Instr} (h : i.isCommand = true) (s : State) :
    exec i s = .next (s.onBlock fun b => b.issue (effectOf s.pick i)) := by
  cases i <;> first | rfl | cases h

@[simp] theorem exec_bstart (s : State) : exec .bstart s = .next (s.onBlock Block.bstart) := rfl
@[simp] theorem exec_bdone (s : State) : exec .bdone s = .next (s.onBlock Block.bdone) := rfl

/-- No instruction is refused or faults. -/
theorem exec_next (i : Instr) (s : State) : ∃ t, exec i s = .next t := by cases i <;> exact ⟨_, rfl⟩

/-- The moves of the block: which event can lead from which block to which. -/
inductive Move (p : FreePick) : Input → Block → Block → Prop
  /-- a host read, or a host write that is ignored -/
  | stay (a : Access) (b : Block) : Move p (.host a) b b
  /-- a host write that stores -/
  | store {off : BitVec 8} {v : Word} {r : Reg} {b : Block} (ha : b.accepting) (hr : regAt off = some r)
      (hw : r.writable = true) (hc : r ≠ .cmd) : Move p (.host (.write off .word v)) b (b.storeReg v r)
  /-- an accepted legal command -/
  | command {v : Word} {i : Instr} {b : Block} (ha : b.accepting) (hd : decode (.cmd v) = .ok i) :
      Move p (.host (.write 0 .word v)) b (effectOf p i b.clearResults)
  /-- an accepted illegal command word -/
  | illegal {v : Word} {e : DecodeError} {b : Block} (ha : b.accepting) (hd : decode (.cmd v) = .error e) :
      Move p (.host (.write 0 .word v)) b (b.clearResults.raiseFatal .illCmd)
  | seq {b c : Block} (h : b.seqStep = some c) : Move p .seq b c
  | ares {i : Slot} {b : Block} (h : b.aresEnabled i = true) : Move p (.ares i) b (b.ares i)
  | bstart (b : Block) : Move p (.bus 0) b b.bstart
  | bdone (b : Block) : Move p (.bus 1) b b.bdone
  | rst (v : ResetValues) (b : Block) : Move p (.rst v) b (.resetWith v)

theorem command_move {f : Block → Block} {p : FreePick} {x : Input} {s t : State}
    (h : command f s = .next t) (hs : ∀ a, x = .host a → Move p x s.blk s.blk)
    (ha : s.blk.accepting → Move p x s.blk (f s.blk.clearResults)) (hx : ∃ a, x = .host a) :
    Move p x s.blk t.blk := by
  simp only [command, Host.Outcome.next.injEq] at h
  subst h
  by_cases hb : s.blk.accepting
  · simpa [issue_of_accepting hb] using ha hb
  · obtain ⟨a, rfl⟩ := hx
    simpa [issue_of_not_accepting hb] using hs a rfl

theorem fieldAt_ne_cmd {f : Field → Reg} (hf : ∀ x, f x ≠ .cmd) (k : Nat) : fieldAt f k ≠ some .cmd := by
  unfold fieldAt; split <;> simp [hf]

/-- `CMD` stands at offset 0 alone (R61). -/
theorem regAt_eq_cmd {off : BitVec 8} (h : regAt off = some .cmd) : off = 0 := by
  unfold regAt at h
  split at h
  · apply BitVec.eq_of_toNat_eq; simp; omega
  all_goals first
    | (simp at h)
    | exact absurd h (fieldAt_ne_cmd (by simp) _)

theorem runInput_move {x : Input} {s t : State} (h : runInput x s = .next t) : Move s.pick x s.blk t.blk := by
  cases x with
  | host a =>
    simp only [runInput, hostAccess] at h
    cases a with
    | read off size =>
      split at h
      · cases h
      · simp only [hostRead, Host.Outcome.next.injEq] at h; subst h; exact .stay _ _
    | write off size v =>
      cases ht : Access.target (.write off size v) with
      | none => rw [ht] at h; cases h
      | some r =>
        rw [ht] at h
        unfold Access.target at ht
        split at ht
        · rename_i hwf
          have hsz : size = .word := by
            simp [Access.fullWidth, Access.size] at hwf; exact hwf.1
          subst hsz
          cases hr : regAt off with
          | none => simp [Access.off, hr] at ht
          | some q =>
            simp only [Access.off, hr] at ht
            split at ht
            · rename_i hw
              cases ht
              by_cases hc : r = .cmd
              · subst hc
                have := regAt_eq_cmd hr
                subst this
                simp only [hostWrite, issueCommand] at h
                split at h
                · rename_i i hd
                  rw [exec_command (isCommand_of_decode hd)] at h
                  exact command_move (f := effectOf s.pick i) h (fun a ha => ha ▸ .stay a _)
                    (fun ha => .command ha hd) ⟨_, rfl⟩
                · rename_i e hd
                  exact command_move h (fun a ha => ha ▸ .stay a _) (fun ha => .illegal ha hd) ⟨_, rfl⟩
              · have hn : t = s.onBlock fun b => b.writeReg v r := by
                  cases r <;> simp_all [hostWrite]
                subst hn
                by_cases ha : s.blk.accepting
                · simpa [writeReg_of_accepting ha] using Move.store ha hr hw hc
                · simpa [writeReg_of_not_accepting ha] using Move.stay _ _
            · cases ht
        · cases ht
  | seq =>
    simp only [runInput, seqAgent] at h
    split at h
    · cases h
    · rename_i b hb; simp only [Host.Outcome.next.injEq] at h; subst h; exact .seq hb
  | ares i =>
    simp only [runInput, mbcAgent] at h
    split at h
    · rename_i hb; simp only [Host.Outcome.next.injEq] at h; subst h; exact .ares hb
    · cases h
  | bus e =>
    rcases busEvent_cases e with rfl | rfl <;> cases h
    · exact .bstart _
    · exact .bdone _
  | rst v => simp only [runInput, Host.Outcome.next.injEq] at h; subst h; exact .rst v _

/-- A 32-bit write to offset 0 reaches `CMD`. -/
theorem target_cmd (w : Word) : Access.target (.write 0#8 .word w) = some .cmd := by
  have h : regAt 0#8 = some .cmd := by decide
  simp [Access.target, Access.fullWidth, Access.aligned, Access.size, Access.off, h, Reg.writable]

/-- An encoded instruction at the head of the schedule is executed (R72, R87). -/
theorem runInput_inputOf {fw : FetchWord} {i : Instr} (h : decode fw = .ok i) (s : State) :
    runInput (inputOf fw) s = exec i s := by
  cases fw with
  | cmd w => simp [inputOf, runInput, hostAccess, target_cmd, hostWrite, issueCommand, h]
  | busEvent e => simp [inputOf, runInput, busAgent, h]

/-- What a step can do to the block: nothing with an empty schedule, else a move of the event at its head. -/
theorem step_move {s t : State} (h : step s = .next t) :
    (s.inputs = [] ∧ t = s) ∨ ∃ x rest, s.inputs = x :: rest ∧ Move s.pick x s.blk t.blk := by
  simp only [step, stepAgents] at h
  split at h
  · rename_i hs; simp only [Host.Outcome.next.injEq] at h; exact .inl ⟨hs, h.symm⟩
  · rename_i x rest hs; exact .inr ⟨x, rest, hs, by simpa using runInput_move h⟩

/-- A step on a schedule that is not empty. -/
theorem step_cons {s : State} {x : Input} {rest : List Input} (h : s.inputs = x :: rest) :
    step s = runInput x { s with inputs := rest } := by simp [step, stepAgents, h]

theorem step_move_cons {s t : State} {x : Input} {rest : List Input} (hs : s.inputs = x :: rest)
    (h : step s = .next t) : Move s.pick x s.blk t.blk := by
  rw [step_cons hs] at h; simpa using runInput_move h

end Sys2Proof.Machine
end

