-- ==== Sys2Proof/Laws/Script.lean ====
section
/-! SUPPORT. Script lines: every register stands at its offset, what a read, a write and a command line do, and what
is known where a script ends. -/

namespace Sys2Proof.Machine

/-- The register map holds every register at its offset (20_memory.md R61). -/
theorem regAt_regOffset (r : Reg) : regAt (regOffset r) = some r := by
  cases r <;> first | rfl | (rename_i f; cases f <;> rfl) | (rename_i i f; cases i <;> cases f <;> rfl)

theorem regOffset_aligned (r : Reg) : (regOffset r).extractLsb' 0 2 = 0#2 := by
  cases r <;> first | rfl | (rename_i f; cases f <;> rfl) | (rename_i i f; cases i <;> cases f <;> rfl)

theorem runInput_wr {r : Reg} (h : r.writable = true) (v : Word) (s : State) :
    runInput (Line.wr r v).input s = hostWrite r v s := by
  simp [runInput, Line.input, hostAccess, Access.target, Access.fullWidth, Access.aligned, Access.size, Access.off,
    regOffset_aligned, regAt_regOffset, h]

theorem runInput_rd (r : Reg) (s : State) : runInput (Line.rd r).input s = hostRead r s := by
  simp [runInput, Line.input, hostAccess, Access.target, Access.fullWidth, Access.aligned, Access.size, Access.off,
    regOffset_aligned, regAt_regOffset]

/-- Every encoded instruction decodes to itself, as a script line needs it. -/
theorem runInput_op {i : Instr} (h : decode (encode i) = .ok i) (s : State) :
    runInput (Line.op i).input s = exec i s := runInput_inputOf h s

@[simp] theorem andThen_next (t : State) (f : State → Result) : andThen (.next t) f = f t := rfl

/-- Events played one after another end in a next state exactly when each of them does. -/
theorem play_cons_next {x : Input} {l : List Input} {s u : State} :
    play (x :: l) s = .next u ↔ ∃ t, runInput x s = .next t ∧ play l t = .next u := by
  simp only [play, andThen]
  cases runInput x s <;> simp

/-- A held phase is a phase of a `TX` in progress. -/
theorem held_not_complete {b : Block} (h : b.held = true) : b.complete = false := by
  simp only [Block.held, Bool.and_eq_true, beq_iff_eq] at h
  simp [Block.complete, h.1]

/-- An empty place of a schedule changes nothing. -/
@[simp] theorem playBetween_nil (s : State) : playBetween [] s = .next s := rfl

/-- The steps in one place of a schedule end in a next state exactly when each of them does. -/
theorem playBetween_cons_next {x : Between} {l : List Between} {s u : State} :
    playBetween (x :: l) s = .next u ↔ ∃ t, runInput x.input s = .next t ∧ playBetween l t = .next u := play_cons_next

/-- What a sequel answers next, it answers from a next state. -/
theorem andThen_eq_next {r : Result} {f : State → Result} {u : State} :
    andThen r f = .next u ↔ ∃ t, r = .next t ∧ f t = .next u := by
  cases r <;> simp [andThen]

/-- All that a round of `TXSPIN` does: its events, in the order of R92. -/
theorem txAttempt_eq_next {r : Round} {s u : State} :
    txAttempt r s = .next u ↔ ∃ a b c d, playBetween r.beforeTx s = .next a ∧ exec .tx a = .next b ∧
      run r.inRun b = .next c ∧ playBetween r.beforeRead c = .next d ∧ hostRead .rstat d = .next u := by
  simp only [txAttempt, andThen_eq_next, runInput_op (i := .tx) rfl, runInput_rd]
  constructor
  · rintro ⟨d, ⟨c, ⟨b, ⟨a, ha, hb⟩, hc⟩, hd⟩, hu⟩
    exact ⟨a, b, c, d, ha, hb, hc, hd, hu⟩
  · rintro ⟨a, b, c, d, ha, hb, hc, hd, hu⟩
    exact ⟨d, ⟨c, ⟨b, ⟨a, ha, hb⟩, hc⟩, hd⟩, hu⟩

/-- Where `TXSPIN` ends, the word last read has `RETRY` 0 (R92). -/
theorem txSpin_retry {l : List Round} {s t : State} (h : txSpin l s = some t) :
    (t.rdata.getD 0).getLsbD 3 = false := by
  induction l generalizing s with
  | nil => cases h
  | cons r more ih =>
    simp only [txSpin, Option.bind_eq_some_iff] at h
    obtain ⟨u, _, h⟩ := h
    split at h
    · exact ih h
    · rename_i hr; cases h; simpa using hr

/-- A script has an end state exactly where its last line leaves no `TX` in progress (R13). -/
theorem scriptEnd_eq_some {l : List Item} {s t : State} :
    scriptEnd l s = some t ↔ playScript l s = some t ∧ t.blk.complete = true := by
  simp [scriptEnd, Option.filter_eq_some_iff]

end Sys2Proof.Machine
end

