-- ==== Sys2Proof/Laws/Slots.lean ====
section
/-! SUPPORT. The slots: what `TME`, `CODE`, `SEL` and the slot in flight say of them, what each phase does to them, and
`move_slot`: everything any event can do to one slot. -/

namespace Sys2Proof.Machine

theorem tme_ne_zero_iff (b : Block) : b.tme ≠ 0#3 ↔ ∃ i, (b.slot i).st = .empty := by
  rw [slot_exists]
  simp only [Block.tme, vec3, slot_s0, slot_s1, slot_s2, Mailbox.isEmpty]
  cases b.mb0.st <;> cases b.mb1.st <;> cases b.mb2.st <;> decide

theorem code_of_empty (p : FreePick) {b : Block} (h : ∃ i, (b.slot i).st = .empty) :
    (b.slot (b.code p)).st = .empty := by
  rw [Block.code, if_pos ((tme_ne_zero_iff b).2 h)]
  have := pick_mem p (e := fun i => (b.slot i).isEmpty)
    (by obtain ⟨i, h⟩ := h; exact ⟨i, by simp [Mailbox.isEmpty, h]⟩)
  simpa [Mailbox.isEmpty] using this

theorem inflight_eq_none_iff (b : Block) : b.inflight = none ↔ ∀ i, (b.slot i).st ≠ .inflight := by
  simp [Block.inflight, slots, slot_forall]

theorem st_of_inflight {b : Block} {i : Slot} (h : b.inflight = some i) : (b.slot i).st = .inflight := by
  have := List.find?_some h
  simpa using this

/-- A selected slot is eligible, and no slot is in flight (10_state.md R37). -/
theorem st_of_sel {b : Block} {i : Slot} (h : b.sel = some i) :
    (b.slot i).st = .pending ∧ (b.slot i).abrq = false ∧ ∀ j, (b.slot j).st ≠ .inflight := by
  unfold Block.sel at h
  split at h
  · cases h
  · rename_i hn
    have := List.find?_some h
    simp only [Mailbox.eligible, Bool.and_eq_true, beq_iff_eq, Bool.not_eq_true'] at this
    exact ⟨this.1.1, this.1.2, (inflight_eq_none_iff b).1 (by simpa using hn)⟩

/-! ### The phases -/

@[simp] theorem slot_checkSlot (i : Slot) (n : Phase) (b : Block) (j : Slot) :
    (checkSlot i n b).slot j = b.slot j := by unfold checkSlot; split <;> cases j <;> rfl

@[simp] theorem slot_readBack (b : Block) (j : Slot) : (readBack b).slot j = b.slot j := by
  unfold readBack; dsimp only; split <;> cases j <;> rfl

@[simp] theorem readBack_ph (b : Block) : (readBack b).ph = .write := by unfold readBack; dsimp only; split <;> rfl
@[simp] theorem readBack_tgt (b : Block) : (readBack b).tgt = b.tgt := by unfold readBack; dsimp only; split <;> rfl
@[simp] theorem readBack_fa (b : Block) : (readBack b).fa = b.fa := by unfold readBack; dsimp only; split <;> rfl
@[simp] theorem readBack_age (b : Block) : (readBack b).age = b.age := by unfold readBack; dsimp only; split <;> rfl

theorem slot_writeTarget (b : Block) (j : Slot) :
    (writeTarget b).slot j = if j = b.tgt then .loaded b.fa else b.slot j := by
  rw [← slot_setSlot]; unfold writeTarget; cases j <;> rfl

theorem slot_abortTarget (b : Block) (j : Slot) :
    (abortTarget b).slot j =
      if j = b.tgt ∧ (b.slot j).st ≠ .empty then { b.slot j with abrq := true } else b.slot j := by
  have hph : ∀ c : Block, ({ c with ph := .wait } : Block).slot j = c.slot j := by intro c; cases j <;> rfl
  unfold abortTarget
  by_cases he : (b.slot b.tgt).st = .empty
  · have hm : (b.slot b.tgt).isEmpty = true := by simp [Mailbox.isEmpty, he]
    simp only [hm, if_true]
    rw [hph, if_neg]
    rintro ⟨rfl, h⟩
    exact h he
  · have hm : (b.slot b.tgt).isEmpty = false := by simp [Mailbox.isEmpty, he]
    simp only [hm, Bool.false_eq_true, if_false]
    rw [hph, slot_setSlot]
    by_cases hj : j = b.tgt
    · subst hj; simp [he]
    · simp [hj]

@[simp] theorem abortTarget_ph (b : Block) : (abortTarget b).ph = .wait := rfl
@[simp] theorem abortTarget_tgt (b : Block) : (abortTarget b).tgt = b.tgt := by
  unfold abortTarget; dsimp only; split <;> simp
@[simp] theorem abortTarget_fa (b : Block) : (abortTarget b).fa = b.fa := by
  unfold abortTarget; dsimp only; split <;> simp
@[simp] theorem abortTarget_age (b : Block) : (abortTarget b).age = b.age := by
  unfold abortTarget; dsimp only; split <;> simp

/-- What a SEQ step does to one slot: nothing, an abort request (R155), or the load (R157). -/
theorem seqStep_slot {b c : Block} (h : b.seqStep = some c) (j : Slot) :
    c.slot j = b.slot j ∨
    (b.ph = .abort ∧ j = b.tgt ∧ (b.slot j).st ≠ .empty ∧ c.slot j = { b.slot j with abrq := true }) ∨
    (b.ph = .write ∧ j = b.tgt ∧ c.slot j = .loaded b.fa) := by
  unfold Block.seqStep at h
  split at h <;> rename_i hp <;> simp only [Option.some.injEq, reduceCtorEq] at h <;> subst h
  · left; apply slot_checkSlot
  · left; apply slot_checkSlot
  · left; apply slot_checkSlot
  · rw [slot_abortTarget]
    split
    · rename_i hc; exact .inr (.inl ⟨hp, hc.1, hc.2, rfl⟩)
    · exact .inl rfl
  · left
    split
    · rfl
    · apply slot_readBack
  · rw [slot_writeTarget]
    split
    · exact .inr (.inr ⟨hp, ‹_›, rfl⟩)
    · exact .inl rfl

/-- No command changes a slot in its own step. -/
@[simp] theorem slot_effectOf (p : FreePick) (i : Instr) (b : Block) : ∀ j, (effectOf p i b).slot j = b.slot j := by
  cases i with
  | tx => simp only [effectOf, txEffect]; split <;> exact slot_congr ⟨rfl, rfl, rfl⟩
  | mkstd => simp only [effectOf, mkstdEffect]; split <;> exact slot_congr ⟨rfl, rfl, rfl⟩
  | mkext => simp only [effectOf, mkextEffect]; split <;> exact slot_congr ⟨rfl, rfl, rfl⟩
  | mkdata x =>
    simp only [effectOf, mkdataEffect]
    split
    · exact slot_congr ⟨rfl, rfl, rfl⟩
    · simp
  | mkrmt x =>
    simp only [effectOf, mkrmtEffect]
    split
    · exact slot_congr ⟨rfl, rfl, rfl⟩
    · simp
  | _ => exact slot_congr ⟨rfl, rfl, rfl⟩

@[simp] theorem slot_storeReg (b : Block) (v : Word) (r : Reg) (j : Slot) : (b.storeReg v r).slot j = b.slot j := by
  cases r <;> cases j <;> rfl
@[simp] theorem storeReg_age (b : Block) (v : Word) (r : Reg) : (b.storeReg v r).age = b.age := by cases r <;> rfl
@[simp] theorem storeReg_ph (b : Block) (v : Word) (r : Reg) : (b.storeReg v r).ph = b.ph := by cases r <;> rfl
@[simp] theorem storeReg_rs (b : Block) (v : Word) (r : Reg) : (b.storeReg v r).rs = b.rs := by cases r <;> rfl

/-- Everything an event other than a reset can do to one slot. -/
theorem move_slot {p : FreePick} {x : Input} {b c : Block} (m : Move p x b c) (hx : ∀ v, x ≠ .rst v) (j : Slot) :
    c.slot j = b.slot j ∨
    (x = .seq ∧ b.ph = .abort ∧ j = b.tgt ∧ (b.slot j).st ≠ .empty ∧ c.slot j = { b.slot j with abrq := true }) ∨
    (x = .seq ∧ b.ph = .write ∧ j = b.tgt ∧ c.slot j = .loaded b.fa) ∨
    (x = .ares j ∧ (b.slot j).st = .pending ∧ (b.slot j).abrq = true ∧ c.slot j = (b.slot j).emptied false) ∨
    (x = .bus 0 ∧ b.sel = some j ∧ c.slot j = { b.slot j with st := .inflight }) ∨
    (x = .bus 1 ∧ (b.slot j).st = .inflight ∧ c.slot j = (b.slot j).emptied true) := by
  cases m with
  | stay => exact .inl rfl
  | store => left; simp
  | command => left; simp
  | illegal => left; simp
  | seq h =>
    rcases seqStep_slot h j with h | h | h
    · exact .inl h
    · exact .inr (.inl ⟨rfl, h⟩)
    · exact .inr (.inr (.inl ⟨rfl, h⟩))
  | ares h =>
    rename_i i
    simp only [Block.aresEnabled, Bool.and_eq_true, beq_iff_eq] at h
    unfold Block.ares
    rw [slot_setSlot]
    split
    · rename_i e; subst e; simp [h]
    · exact .inl rfl
  | bstart =>
    unfold Block.bstart
    split
    · exact .inl rfl
    · rename_i i hi
      rw [slot_setSlot]
      split
      · rename_i e; subst e; simp [hi]
      · exact .inl rfl
  | bdone =>
    unfold Block.bdone
    split
    · exact .inl rfl
    · rename_i i hi
      rw [slot_setSlot]
      split
      · rename_i e; subst e; simp [st_of_inflight hi]
      · exact .inl rfl
  | rst v => exact absurd rfl (hx v)

end Sys2Proof.Machine
end

