-- ==== Sys2Proof/Tests/Slice0.lean ====
section
/-! SUPPORT. Tests and witnesses. A test's expected value is the row of spec/95_test_vectors.md its comment names, or is
worked by hand from the rule it names. A witness shows a concrete state that meets the hypotheses of the obligation it is
named after, one for each clause. -/

namespace Sys2Proof.Tests.Slice0

open Sys2Proof
open Sys2Proof.Machine

/-! ### Helpers -/

/-- The frames F1 to F4 of 95_test_vectors.md 2.5. -/
def f1 : Frame := { id := 0x60000000, dlc := 3, dl := 0x00030201, dh := 0 }
def f2 : Frame := { id := 0x40000000, dlc := 8, dl := 0x44332211, dh := 0x88776655 }
def f3 : Frame := { id := 0x20000000, dlc := 0, dl := 0, dh := 0 }
def f4 : Frame := { id := 0x0A000000, dlc := 2, dl := 0x0000BBAA, dh := 0 }

/-- The block after reset, with operands and frame registers. -/
def block (opa opb : Word) (fa fb : Frame) : Block := { State.reset.blk with opa := opa, opb := opb, fa := fa, fb := fb }

def withOps (opa opb : Word) : Block := block opa opb f1 f2

/-- Scenario S1 after its third load, with F4 in `FA`. -/
def full : Block :=
  { State.reset.blk with
    mb0 := .loaded f1, mb1 := .loaded f2, mb2 := .loaded f3, age := { a01 := true, a02 := true, a12 := true }, fa := f4 }

/-- `full` in a phase of a `TX` with target 0. -/
def fullIn (p : Phase) : Block := { full with ph := p }

/-- `full` with slot 0 in flight. -/
def sending : Block := { full with mb0 := { Mailbox.loaded f1 with st := .inflight } }

/-- `full` in `WAIT` with slot 0 as given. -/
def waiting (m : Mailbox) : Block := { fullIn .wait with mb0 := m }

def abortPending : Mailbox := { Mailbox.loaded f1 with abrq := true }
def aborted : Mailbox := (Mailbox.loaded f1).emptied false
def sent : Mailbox := (Mailbox.loaded f1).emptied true

def on (b : Block) (l : List Input) : State := { State.reset with blk := b, inputs := l }

/-- What a result holds of the next state's block, none where there is no next state. -/
def result {α : Type} (f : Block → α) : Result → Option α
  | .next t => some (f t.blk)
  | .fault _ => none
  | .refused _ => none

def isPortFault : Result → Bool
  | .refused .portFault => true
  | _ => false

def access (a : Access) : Result := step (on State.reset.blk [.host a])

/-- Run `n` steps while `c` holds. -/
def runN (c : State → Bool) : Nat → State → Option State
  | 0, s => some s
  | n + 1, s =>
    if c s then
      match step s with
      | .next t => runN c n t
      | .fault _ => none
      | .refused _ => none
    else none

theorem runWhile_of_runN {P : State → Prop} {c : State → Bool} (hc : ∀ s, c s = true → P s) {n : Nat} {s t : State}
    (h : runN c n s = some t) : RunWhile P s t := by
  induction n generalizing s with
  | zero => cases h; exact .refl _
  | succ n ih =>
    simp only [runN] at h
    split at h
    · rename_i hs
      split at h
      · rename_i u hu; exact .cons (hc _ hs) hu (ih h)
      · cases h
      · cases h
    · cases h

/-! ### The form checks: an ill-formed term for each -/

theorem test_wf_byte_refused : (Access.read 0x10 .byte).wellFormed = false := by decide
theorem test_wf_half_refused : (Access.write 0x10 .half 0).wellFormed = false := by decide
theorem test_wf_misaligned_refused : (Access.read 0x06 .word).wellFormed = false := by decide
theorem test_wf_word_accepted : (Access.write 0x10 .word 0).wellFormed = true := by decide

/-! ### Decoding: the words of 30_encoding.md R84, R85, R87, written out as 27 reserved bits, `F` and `OP` -/

theorem test_decode_nop : decode (.cmd 0b000000000000000000000000000_0_0000#32) = .ok .nop := by decide
theorem test_decode_mkstd : decode (.cmd 0b000000000000000000000000000_0_0001#32) = .ok .mkstd := by decide
theorem test_decode_mkext : decode (.cmd 0b000000000000000000000000000_0_0010#32) = .ok .mkext := by decide
theorem test_decode_setrtr : decode (.cmd 0b000000000000000000000000000_0_0011#32) = .ok .setrtr := by decide
theorem test_decode_decid : decode (.cmd 0b000000000000000000000000000_0_0100#32) = .ok .decid := by decide
theorem test_decode_cmp : decode (.cmd 0b000000000000000000000000000_0_0101#32) = .ok .cmp := by decide
theorem test_decode_mkdata_a : decode (.cmd 0b000000000000000000000000000_0_0110#32) = .ok (.mkdata .fa) := by decide
theorem test_decode_mkdata_b : decode (.cmd 0b000000000000000000000000000_1_0110#32) = .ok (.mkdata .fb) := by decide
theorem test_decode_mkrmt_a : decode (.cmd 0b000000000000000000000000000_0_0111#32) = .ok (.mkrmt .fa) := by decide
theorem test_decode_mkrmt_b : decode (.cmd 0b000000000000000000000000000_1_0111#32) = .ok (.mkrmt .fb) := by decide
theorem test_decode_feq : decode (.cmd 0b000000000000000000000000000_0_1000#32) = .ok .feq := by decide
theorem test_decode_fcmp : decode (.cmd 0b000000000000000000000000000_0_1001#32) = .ok .fcmp := by decide
theorem test_decode_tx : decode (.cmd 0b000000000000000000000000000_0_1010#32) = .ok .tx := by decide
theorem test_decode_idle : decode (.cmd 0b000000000000000000000000000_0_1011#32) = .ok .idle := by decide
theorem test_decode_bstart : decode (.busEvent 0b0#1) = .ok .bstart := by decide
theorem test_decode_bdone : decode (.busEvent 0b1#1) = .ok .bdone := by decide

-- 95_test_vectors.md X3, X5, X6, X7: illegal words
theorem test_decode_reserved_op : decode (.cmd 0x0000000C) = .error .reservedOp := by decide
theorem test_decode_stray_select : decode (.cmd 0x0000001A) = .error .straySelect := by decide
theorem test_decode_reserved_bit5 : decode (.cmd 0x00000020) = .error .reservedBits := by decide
theorem test_decode_reserved_bit31 : decode (.cmd 0x80000001) = .error .reservedBits := by decide

-- the opcode table's own numbering
theorem test_table_mkdata_b : decodeTableWord 32 0x16 = some (.mkdata .fb) := by decide
theorem test_table_bdone : decodeTableWord 8 1 = some .bdone := by decide

/-! ### One step of each instruction -/

-- X2: `IDLE` after reset, fetched
theorem test_step_idle : result Block.rstatWord (step (State.reset.withFetchWord 32 0xB)) = some 0x00000100 := by decide
-- R167: no slot selected after reset
theorem test_step_bstart_ignored : step (State.reset.withFetchWord 8 0) = .next State.reset := rfl

-- R162, R84
theorem test_nop_clears : result Block.rstatWord
    (exec .nop (on { State.reset.blk with rs := { Rstat.cleared with err := true, ecode := .lenRmt } } [])) =
      some 0 := by decide
-- I3
theorem test_mkstd_largest : result Block.res (exec .mkstd (on (withOps 0x7FF 0) [])) = some 0xFFE00000 := by decide
-- I4
theorem test_mkstd_reject : result Block.rstatWord (exec .mkstd (on (withOps 0x800 0) [])) = some 0x00020004 := by
  decide
-- I7
theorem test_mkext : result Block.res (exec .mkext (on (withOps 0x12345678 0) [])) = some 0x91A2B3C4 := by decide
-- I9
theorem test_mkext_reject : result (fun b => (b.res, b.rstatWord)) (exec .mkext (on (withOps 0x20000000 0) [])) =
    some (0, 0x00030004) := by decide
-- I12
theorem test_setrtr_bit0 : result Block.res (exec .setrtr (on (withOps 0xFFFFFFFF 0xFFFFFFFE) [])) =
    some 0xFFFFFFFC := by decide
-- I13
theorem test_setrtr_canon : result Block.res (exec .setrtr (on (withOps 0x2468ACF1 3) [])) = some 0x24600002 := by
  decide
-- I15
theorem test_decid_extended : result (fun b => (b.res, b.rstatWord)) (exec .decid (on (withOps 0x91A2B3C6 0) [])) =
    some (0x12345678, 0x00000600) := by decide
-- I17
theorem test_decid_stray : result (fun b => (b.res, b.rstatWord)) (exec .decid (on (withOps 0xFFFFFFFB 0) [])) =
    some (0x000007FF, 0x00000400) := by decide
-- V13
theorem test_cmp_tie : result Block.rstatWord (exec .cmp (on (withOps 0x00A00002 0x00A00004) [])) =
    some 0x00000020 := by decide
-- V10
theorem test_cmp_base : result Block.rstatWord (exec .cmp (on (withOps 0x00200000 0x0000000C) [])) =
    some 0x00000040 := by decide
-- M2
theorem test_mkdata_padding : result Block.fa
    (exec (.mkdata .fa) (on (block 0x24600000 5 { id := 1, dlc := 2, dl := 0xDDCCBBAA, dh := 0x11223344 } f2) [])) =
      some { id := 0x24600000, dlc := 5, dl := 0xDDCCBBAA, dh := 0x00000044 } := by decide
-- M6
theorem test_mkdata_fatal : result (fun b => (b.fa, b.rstatWord))
    (exec (.mkdata .fa) (on (block 0x24600000 0x100 f1 f2) [])) = some (f1, 0x00740006) := by decide
-- M7
theorem test_mkrmt_b : result (fun b => (b.fa, b.fb))
    (exec (.mkrmt .fb) (on (block 0x91A2B3C4 8 f1 { id := 1, dlc := 2, dl := 3, dh := 4 }) [])) =
      some (f1, { id := 0x91A2B3C6, dlc := 8, dl := 0, dh := 0 }) := by decide
-- M9
theorem test_mkrmt_reject : result (fun b => (b.fa, b.rstatWord))
    (exec (.mkrmt .fa) (on (block 0x24600000 9 f1 f2) [])) = some (f1, 0x00050004) := by decide
-- Q7
theorem test_feq_beyond_length : result Block.rstatWord (exec .feq (on (block 0 0
    { id := 0x24600000, dlc := 2, dl := 0x0011AAAA, dh := 0 }
    { id := 0x24600000, dlc := 2, dl := 0x0022AAAA, dh := 0 }) [])) = some 0x00000080 := by decide
-- Q8
theorem test_feq_byte7 : result Block.rstatWord (exec .feq (on (block 0 0
    { id := 0x24600000, dlc := 8, dl := 1, dh := 0x01000000 }
    { id := 0x24600000, dlc := 8, dl := 1, dh := 0x02000000 }) [])) = some 0x00000000 := by decide
-- Q4
theorem test_fcmp_data_remote : result Block.rstatWord (exec .fcmp (on (block 0 0
    { id := 0x24600000, dlc := 2, dl := 0x0000AAAA, dh := 0 }
    { id := 0x24600002, dlc := 2, dl := 0x0000AAAA, dh := 0 }) [])) = some 0x00000020 := by decide
-- S1, `TX F1`
theorem test_tx_empty : result (fun b => (b.snap, b.tgt, b.rstatWord)) (exec .tx (on (block 0 0 f1 f2) [])) =
    some (0b111, .s0, 0x00600001) := by decide
-- S1, `TX F4`
theorem test_tx_full : result (fun b => (b.snap, b.tgt, b.rstatWord)) (exec .tx (on full [])) =
    some (0b000, .s0, 0x00100001) := by decide
-- R161
theorem test_idle_full : result Block.rstatWord (exec .idle (on full [])) = some 0x00000000 := by decide
-- S5, `BSTART`
theorem test_bstart : result (Block.statusWord .lowest) (exec .bstart (on full [])) = some 0x00000400 := by decide
-- S8, `BDONE`
theorem test_bdone : result (Block.statusWord .lowest)
    (exec .bdone (on { State.reset.blk with mb0 := { Mailbox.loaded f1 with st := .inflight } } [])) =
      some 0x00110070 := by decide

/-! ### The steps without an instruction word, from S1 -/

theorem test_chk2 : result Block.rstatWord (step (on (fullIn .chk2) [.seq])) = some 0x00400001 := by decide
theorem test_abort : result (Block.statusWord .lowest) (step (on (fullIn .abort) [.seq])) = some 0x06001000 := by decide
theorem test_wait_held : step (on (waiting abortPending) [.seq]) = .next (on (waiting abortPending) []) := rfl
theorem test_ares : result (fun b => (b.statusWord .lowest, b.mb0.idRead))
    (step (on (waiting abortPending) [.ares .s0])) = some (0x06010010, 0x60000000) := by decide
theorem test_wait_reads_back : result (fun b => (b.ev, b.rstatWord)) (step (on (waiting aborted) [.seq])) =
    some (f1, 0x00600011) := by decide
theorem test_write : result (fun b => (b.statusWord .lowest, b.mb0.idRead, b.age))
    (step (on { waiting aborted with ph := .write } [.seq])) =
      some (0x04000001, 0x0A000001, { a01 := false, a02 := false, a12 := true }) := by decide

/-! ### The host port (X3, X8 and the port faults of 95_test_vectors.md 2.4) -/

theorem test_illegal_halts : result Block.rstatWord (access (.write 0x00 .word 0x0000000C)) = some 0x00710006 := by decide
theorem test_halted_ignores : result Block.rstatWord
    (step (on (State.reset.blk.raiseFatal .illCmd) [.host (.write 0x00 .word 0)])) = some 0x00710006 := by decide
theorem test_port_unmapped : isPortFault (access (.read 0x18 .word)) = true := by decide
theorem test_port_misaligned : isPortFault (access (.read 0x06 .word)) = true := by decide
theorem test_port_size : isPortFault (access (.write 0x10 .half 0)) = true := by decide
theorem test_port_read_only : isPortFault (access (.write 0x50 .word 0)) = true := by decide

/-! ### Scripts (30_encoding.md R91, R92; 00_scope.md R13) -/

-- R13: a script that ends with a `TX` in progress has no end state; S1: with `RUN` after it, it has one
theorem test_script_mid_tx : scriptEnd [.line (.op .tx)] (on (block 0 0 f1 f2) []) = none := by rfl
theorem test_script_run : (scriptEnd [.line (.op .tx), .run []] (on (block 0 0 f1 f2) [])).map
    (fun t => t.blk.mb0.idRead) = some 0x60000001 := by decide
-- S1: the abort falls before the `WAIT` step, and the `TX` of F4 ends with `EVICTED`
theorem test_txSpin_evicts : (txSpin [{ inRun := [[], [], [], [], [.ares .s0]] }] (on full [])).map (fun t => t.rdata) =
    some (some 0x00000010) := by decide
-- R92: with nothing between, `RUN` is held in `WAIT`, and the script has no end state
theorem test_txSpin_held : (txSpin [{}] (on full [])).map (fun t => t.rdata) = some (some 0x00500001) ∧
    (scriptEnd [.txSpin [{}]] (on full [])).isNone = true := by decide
-- R92: a frame that its own equal blocks retries, and a schedule that ends there gives the loop no end
theorem test_txSpin_retries : (txSpin [{}, {}] (on { full with fa := f1 } [])).isNone = true := by decide
-- 95_test_vectors.md P3: BSTART, then BDONE, each between a read of RSTAT and the next `TX`; the third round loads slot 2 and
-- evicts nothing, and RSTAT and STATUS then read as written there
theorem test_txSpin_p3 : (scriptEnd ((pseudoLdfa 0x30000000 1 0x00000077 0).map .line ++
      [.txSpin [{}, { beforeTx := [.bus 0] }, { beforeTx := [.bus 1] }]]) (on full [])).map
    (fun t => (t.rdata, t.blk.mb2.idRead, t.blk.statusWord .lowest)) =
    some (some 0x00002000, 0x30000001, 0x06000000) := by decide

/-! ### Witnesses: encoding and order -/

theorem witness_StepRunsDecodedWord : (on full [inputOf (.cmd 0x16)]).inputs = inputOf (.cmd 0x16) :: [] ∧
    decode (.cmd 0x16) = .ok (.mkdata .fb) ∧ decodeTableWord 32 0x16 = some (.mkdata .fb) ∧
    decodeTableWord 8 1 = some .bdone := by decide

theorem witness_DecodeEncodeAgree : (Instr.mkdata .fb).wellFormed = true := by decide

/-- An illegal word of each kind at its lowest value, and a state that accepts a command and whose next event writes it. -/
theorem witness_EveryCommandWordLegalOrFatal : full.accepting ∧
    (on full [.host (.write 0 .word 0x0000000C)]).inputs = .host (.write 0 .word 0x0000000C) :: [] ∧
    (0x0000000C : Word) ∉ ([0x0, 0x1, 0x2, 0x3, 0x4, 0x5, 0x6, 0x16, 0x7, 0x17, 0x8, 0x9, 0xA, 0xB] : List Word) ∧
    (0x00000010 : Word) ∉ ([0x0, 0x1, 0x2, 0x3, 0x4, 0x5, 0x6, 0x16, 0x7, 0x17, 0x8, 0x9, 0xA, 0xB] : List Word) ∧
    (0x00000020 : Word) ∉ ([0x0, 0x1, 0x2, 0x3, 0x4, 0x5, 0x6, 0x16, 0x7, 0x17, 0x8, 0x9, 0xA, 0xB] : List Word) :=
  ⟨rfl, rfl, by decide⟩

/-- Two triples in range with one word: at the ends of both ranges. -/
theorem witness_CanonicalWordsAreEncodings :
    (0x7FF ≤ (if false then 0x1FFFFFFF else 0x7FF) ∧ (0x7FF * 2 ^ 21 + true.toNat * 2 : Nat) = 0xFFE00002) ∧
    (0x1FFFFFFF ≤ (if true then 0x1FFFFFFF else 0x7FF) ∧ (0x1FFFFFFF * 8 + 4 + true.toNat * 2 : Nat) = 0xFFFFFFFE) := by
  decide

/-- The clauses of the order: transitivity (V1 and one more), congruence (V21), standard against extended (V13), data
against remote (V2), the two extreme words. -/
theorem witness_PriorityIsATotalOrder :
    (prioCmp 0x00000000 0x00200000 = .higher ∧ prioCmp 0x00200000 0x00400000 = .higher) ∧
    prioCmp 0x2468ACF1 0x24600000 = .equal ∧
    ((0x00A00002 : Word).getLsbD 2 = false ∧ (0x00A00004 : Word).getLsbD 2 = true ∧
      (0x00A00002 : Word).extractLsb' 21 11 = (0x00A00004 : Word).extractLsb' 21 11) ∧
    ((dec 0x24600000).ide = (dec 0x24600002).ide ∧ (dec 0x24600000).id = (dec 0x24600002).id ∧
      (dec 0x24600000).rtr = false ∧ (dec 0x24600002).rtr = true) ∧
    (isCanonical 0x00000002 = true ∧ (0x00000002 : Word) ≠ 0x00000000) ∧
    (isCanonical 0xFFFFFFFC = true ∧ (0xFFFFFFFC : Word) ≠ 0xFFFFFFFE) := by decide

/-! ### Witnesses: the commands -/

theorem witness_NopClearsResults : State.reset.blk.accepting ∧ ¬(fullIn .wait).accepting :=
  ⟨rfl, by unfold Block.accepting; decide⟩

/-- Also of `SETRTR`, `DECID`, `CMP`, `FEQ`, `FCMP` and `IDLE`, whose one hypothesis is the first clause. -/
theorem witness_MkstdResult : (withOps 0x7FF 0).accepting ∧ (withOps 0x7FF 0).opa.toNat ≤ 0x7FF ∧
    (withOps 0x800 0).accepting ∧ 0x7FF < (withOps 0x800 0).opa.toNat := ⟨rfl, by decide, rfl, by decide⟩

theorem witness_MkextResult : (withOps 0x1FFFFFFF 0).accepting ∧ (withOps 0x1FFFFFFF 0).opa.toNat ≤ 0x1FFFFFFF ∧
    (withOps 0x20000000 0).accepting ∧ 0x1FFFFFFF < (withOps 0x20000000 0).opa.toNat :=
  ⟨rfl, by decide, rfl, by decide⟩

theorem witness_SetrtrResult : (withOps 0x24600002 1).accepting ∧ (dec (withOps 0x24600002 1).opa).rtr =
    (withOps 0x24600002 1).opb.getLsbD 0 := ⟨rfl, by decide⟩

theorem witness_DecidResult : (withOps 0xFFFFFFFF 0).accepting := rfl

theorem witness_ConstructThenDecode : State.reset.blk.accepting ∧ (0x7FF : Word).toNat ≤ 0x7FF ∧
    (0x1FFFFFFF : Word).toNat ≤ 0x1FFFFFFF := ⟨rfl, by decide⟩

/-- V4, V1 and V10: one pair for each outcome. -/
theorem witness_CmpResult :
    ((withOps 0xFFE00000 0xFFE00000).accepting ∧ prioCmp 0xFFE00000 0xFFE00000 = .equal) ∧
    ((withOps 0x00000000 0x00200000).accepting ∧ prioCmp 0x00000000 0x00200000 = .higher) ∧
    ((withOps 0x00200000 0x0000000C).accepting ∧ prioCmp 0x00200000 0x0000000C = .lower) :=
  ⟨⟨rfl, by decide⟩, ⟨rfl, by decide⟩, ⟨rfl, by decide⟩⟩

theorem witness_MkdataResult : (withOps 0x24600000 8).accepting ∧ (withOps 0x24600000 8).opb.toNat ≤ 8 ∧
    (withOps 0x24600000 9).accepting ∧ 8 < (withOps 0x24600000 9).opb.toNat := ⟨rfl, by decide, rfl, by decide⟩

/-- The hypotheses of `MKRMT` are those of `MKDATA`. -/
theorem witness_MkrmtResult : (withOps 0x91A2B3C4 8).accepting ∧ (withOps 0x91A2B3C4 8).opb.toNat ≤ 8 ∧
    (withOps 0x91A2B3C4 9).accepting ∧ 8 < (withOps 0x91A2B3C4 9).opb.toNat := ⟨rfl, by decide, rfl, by decide⟩

/-- Equal frames that are not the same (Q7, Q1), and well-formed data frames. -/
theorem witness_FrameEqualityIsAnEquivalence :
    feq { f4 with dl := 0x0011BBAA } { f4 with dl := 0x0022BBAA } = true ∧
    feq { f4 with dl := 0x0022BBAA } f4 = true ∧
    (f2.wellFormed = true ∧ f1.wellFormed = true ∧ f2.isRemote = false) := by decide

theorem witness_FeqResult : (block 0 0 f1 f1).accepting := rfl

theorem witness_FcmpResult :
    ((block 0 0 f1 f1).accepting ∧ prioCmp f1.id f1.id = .equal) ∧
    ((block 0 0 f2 f1).accepting ∧ prioCmp f2.id f1.id = .higher) ∧
    ((block 0 0 f1 f2).accepting ∧ prioCmp f1.id f2.id = .lower) :=
  ⟨⟨rfl, by decide⟩, ⟨rfl, by decide⟩, ⟨rfl, by decide⟩⟩

theorem witness_IdleResult : full.accepting ∧ State.reset.blk.accepting := ⟨rfl, rfl⟩

/-- The premise on the instruction and the next state, on a block with slots in use; and a length on which `MKDATA` halts. -/
theorem witness_CommandsLeaveSlotsAlone : (∃ t, exec (.mkdata .fb) (on full []) = .next t) ∧
    result Block.ph (exec (.mkdata .fb) (on { full with opb := 9 } [])) = some .halt := ⟨⟨_, rfl⟩, by decide⟩

theorem witness_TxFirstPhase :
    ((block 0 0 f2 f1).accepting ∧ (block 0 0 f2 f1).fa.dlc.toNat ≤ 8 ∧
      (∃ i, ((block 0 0 f2 f1).slot i).st = .empty)) ∧
    (full.accepting ∧ full.fa.dlc.toNat ≤ 8 ∧ ∀ i, (full.slot i).st ≠ .empty) ∧
    ((block 0 0 { f2 with dlc := 9 } f1).accepting ∧ 8 < (block 0 0 { f2 with dlc := 9 } f1).fa.dlc.toNat) := by
  refine ⟨⟨rfl, by decide, .s0, by decide⟩, ⟨rfl, by decide, ?_⟩, rfl, by decide⟩
  intro i; cases i <;> decide

theorem witness_BstartResult : full.sel = some .s2 ∧ sending.sel = none := by decide

theorem witness_BdoneResult :
    ((sending.slot .s0).st = .inflight ∧ ∀ j, (sending.slot j).st = .inflight → j = .s0) ∧
    ∀ i, (full.slot i).st ≠ .inflight := by
  refine ⟨⟨by decide, ?_⟩, ?_⟩
  · intro j; cases j <;> decide
  · intro i; cases i <;> decide

theorem witness_AresResult : (on (waiting abortPending) [.ares .s0]).inputs = .ares .s0 :: [] ∧
    ((waiting abortPending).slot .s0).st = .pending ∧ ((waiting abortPending).slot .s0).abrq = true := by decide

/-- Each check phase, with a slot that blocks (the new frame is the slot's own), one that does not, and an empty one. -/
theorem witness_CheckPhases :
    ((fullIn .chk0).ph = .chk0 ∧ ((fullIn .chk0).slot .s0).st ≠ .empty ∧
      prioCmp (fullIn .chk0).fa.id ((fullIn .chk0).slot .s0).content.idWord = .higher) ∧
    ((fullIn .chk1).ph = .chk1 ∧ ({ fullIn .chk1 with fa := f2 }.slot .s1).st ≠ .empty ∧
      prioCmp f2.id ({ fullIn .chk1 with fa := f2 }.slot .s1).content.idWord ≠ .higher) ∧
    ((fullIn .chk2).ph = .chk2 ∧ ({ fullIn .chk2 with mb2 := sent }.slot .s2).st = .empty) := by decide

theorem witness_AbortPhase : (fullIn .abort).ph = .abort ∧ ((fullIn .abort).slot (fullIn .abort).tgt).st ≠ .empty ∧
    ({ fullIn .abort with mb0 := sent }.slot .s0).st = .empty := by decide

theorem witness_WaitPhase :
    ((waiting abortPending).ph = .wait ∧ ((waiting abortPending).slot .s0).abrq = true) ∧
    ((waiting aborted).ph = .wait ∧ ((waiting aborted).slot .s0).abrq = false ∧
      ((waiting aborted).slot .s0).txok = false) ∧
    ((waiting sent).ph = .wait ∧ ((waiting sent).slot .s0).abrq = false ∧ ((waiting sent).slot .s0).txok = true) := by
  decide

theorem witness_WritePhase : (on (fullIn .write) [.seq]).inputs = .seq :: [] ∧ (fullIn .write).ph = .write := by decide

/-- Each phase clause, and `ARES` on a slot that is not pending an abort and on one that is in flight with an abort. -/
theorem witness_DisabledStepsAreRefused : (on full [.seq]).inputs = .seq :: [] ∧ full.ph = .idle ∧
    (fullIn .halt).ph = .halt ∧ ((fullIn .wait).ph ≠ .idle ∧ (fullIn .wait).ph ≠ .halt) ∧
    (on full [.ares .s0]).inputs = .ares .s0 :: [] ∧ ¬((full.slot .s0).st = .pending ∧ (full.slot .s0).abrq = true) ∧
    ¬(((waiting { abortPending with st := .inflight }).slot .s0).st = .pending ∧
      ((waiting { abortPending with st := .inflight }).slot .s0).abrq = true) := by decide

/-- The clauses: a `TX` in progress, a `RUN` of it with steps between; a step of another agent during it; a SEQ step that is
not held. -/
theorem witness_TxEndsInSixSteps : (fullIn .chk0).ph.busy = true ∧
    result Block.ph (run [[.bus 0], [.bus 1], [], [], [.ares .s0]] (on (fullIn .chk0) [])) = some .idle ∧
    (result Block.ph (step (on (fullIn .chk0) [.bus 0]))) = some .chk0 ∧
    (fullIn .chk0).held = false ∧ (result Block.ph (step (on (fullIn .chk0) [.seq]))) = some .chk1 := by decide

/-! ### Witnesses: functions of the state -/

theorem witness_CodeIsEmptyOrLowest : (∃ i, (State.reset.blk.slot i).st = .empty) ∧
    (∀ i, (full.slot i).st ≠ .empty) ∧ full.age.acyclic ∧ full.code .lowest = .s0 := by
  refine ⟨⟨.s0, by decide⟩, ?_, by unfold Age.acyclic; decide, by decide⟩
  intro i; cases i <;> decide

theorem witness_ExtendedOrderIsStrictTotal : full.age.acyclic ∧ full.outranks .s2 .s1 = true ∧
    full.outranks .s1 .s0 = true := ⟨by unfold Age.acyclic; decide, by decide⟩

theorem witness_SelIsFirstEligible : full.age.acyclic ∧ full.sel = some .s2 ∧ (full.slot .s1).st = .pending ∧
    (full.slot .s1).abrq = false := ⟨by unfold Age.acyclic; decide, by decide⟩

theorem witness_BusPortOutputs : full.sel = some .s2 ∧ (sending.slot .s0).st = .inflight ∧
    ∀ j, (sending.slot j).st = .inflight → j = .s0 := by
  refine ⟨by decide, by decide, ?_⟩
  intro j; cases j <;> decide

/-! ### Witnesses: the host port -/

/-- An access for each clause at a boundary offset: each is refused, and the last mapped offset and the last writable one
are not. -/
theorem witness_PortFaultExactly :
    isPortFault (access (.read 0x00 .half)) = true ∧ isPortFault (access (.read 0x01 .word)) = true ∧
    isPortFault (access (.read 0x18 .word)) = true ∧ isPortFault (access (.read 0x1C .word)) = true ∧
    isPortFault (access (.read 0x80 .word)) = true ∧ isPortFault (access (.write 0x04 .word 0)) = true ∧
    isPortFault (access (.write 0x08 .word 0)) = true ∧ isPortFault (access (.write 0x0C .word 0)) = true ∧
    isPortFault (access (.write 0x40 .word 0)) = true ∧ isPortFault (access (.read 0x7C .word)) = false ∧
    isPortFault (access (.write 0x3C .word 0)) = false := by decide

theorem witness_ReadsHaveNoSideEffect : ∃ t, step (on full [.host (.read 0x7C .word)]) = .next t := ⟨_, rfl⟩

theorem witness_WriteThenReadBack : full.accepting ∧
    (on full [(Line.wr (.fa .dlc) 0xFFFFFFFF).input, (Line.rd (.fa .dlc)).input]).inputs =
      (Line.wr (.fa .dlc) 0xFFFFFFFF).input :: (Line.rd (.fa .dlc)).input :: [] := ⟨rfl, rfl⟩

theorem witness_WritesIgnoredWhileBusyOrHalted :
    (fullIn .chk0).rstatWord.getLsbD 0 = true ∧ (fullIn .halt).rstatWord.getLsbD 1 = true ∧
    (on (fullIn .chk0) [(Line.wr .opa 7).input]).inputs = (Line.wr .opa 7).input :: [] ∧
    (on (fullIn .halt) [(Line.rd (.mb .s2 .dh)).input]).inputs = (Line.rd (.mb .s2 .dh)).input :: [] := by decide

theorem witness_HostNeverWritesSlots : ∃ t, step (on full [.host (.write 0x20 .word 7)]) = .next t := ⟨_, rfl⟩

/-! ### Witnesses: errors, halt, reset -/

theorem witness_RejectTouchesOnlyRstat : (withOps 0x800 0).accepting ∧
    result (fun b => (b.rs.err, b.ph)) (exec .mkstd (on (withOps 0x800 0) [])) = some (true, .idle) := ⟨rfl, by decide⟩

/-- Each cause at its boundary: an illegal word, `MKDATA` of FB with length 9, `TX` with length 9. -/
theorem witness_FatalOnlyFromCommandWrites : full.ph ≠ .halt ∧
    result Block.ph (step (on full [.host (.write 0x00 .word 0xC)])) = some .halt ∧
    result Block.ph (step (on { full with opb := 9 } [.host (.write 0x00 .word 0x16)])) = some .halt ∧
    result Block.ph (step (on { full with fa := { f4 with dlc := 9 } } [.host (.write 0x00 .word 0xA)])) = some .halt := by
  decide

/-- A halted run in which the bus engine finishes the frame it has started (scenario S8). -/
theorem witness_HaltEndsOnlyByReset : ∃ t, RunWhile State.noReset (on { sending with ph := .halt } [.bus 1]) t ∧
    (t.blk.slot .s0).st = .empty := by
  refine ⟨_, .cons ?_ rfl (.refl _), rfl⟩
  intro v rest h
  simp [on] at h

theorem witness_ResetValuesAndWords : (on (fullIn .halt) [.rst .zero]).inputs = .rst .zero :: [] := rfl

/-- A reset; and a step that empties a slot and leaves the block halted. -/
theorem witness_OnlyResetLeavesHaltOrDropsAFrame : (on (fullIn .wait) [.rst .zero]).inputs = .rst .zero :: [] ∧
    ({ sending with ph := .halt } : Block).rstatWord.getLsbD 1 = true ∧ (sending.slot .s0).st ≠ .empty ∧
    result (fun b => (b.ph, (b.slot .s0).st)) (step (on { sending with ph := .halt } [.bus 1])) =
      some (.halt, .empty) := by decide

/-! ### Witnesses: invariants and whole-machine rules -/

theorem full_ages : full.age.acyclic := by unfold Age.acyclic; decide

/-- Three pending slots meet the invariant, with no `TX` in progress, and with one whose first check has passed. -/
theorem fullIn_inv {p : Phase} (hp : p = .idle ∨ p = .chk1) : (fullIn p).Inv := by
  have hs : ∀ i, ((fullIn p).slot i).st = .pending ∧ ((fullIn p).slot i).abrq = false ∧
      ((fullIn p).slot i).rqcp = false ∧ ((fullIn p).slot i).txok = false := by
    intro i; cases i <;> exact ⟨rfl, rfl, rfl, rfl⟩
  have hf : ∀ i, (full.slot i).content.dlc.toNat ≤ 8 ∧ isCanonical (full.slot i).content.idWord = true ∧
      prioCmp f4.id (full.slot i).content.idWord = .higher := by
    intro i; cases i <;> decide
  have hfull : ∀ i, (fullIn p).slot i = full.slot i := by intro i; cases i <;> rfl
  exact
    { slots :=
        { oneInFlight := by simp [hs]
          abortNeedsFrame := by simp [hs]
          heldIsOpen := by simp [hs]
          sentIsComplete := by simp [hs]
          abortOnlyOfTarget := by simp [hs]
          loadedFrame := fun i _ => by rw [hfull]; exact ⟨(hf i).1, (hf i).2.1⟩ }
      tx :=
        { frameLength := fun _ => by show f4.dlc.toNat ≤ 8; decide
          writeIntoEmpty := by rcases hp with rfl | rfl <;> simp [fullIn]
          emptiedBySending := by simp [hs]
          waitTarget := by rcases hp with rfl | rfl <;> simp [fullIn]
          waitTargetLoaded := by rcases hp with rfl | rfl <;> simp [fullIn]
          checkedOutranked := fun i _ => .inr (by rw [hfull]; exact (hf i).2.2)
          ages := full_ages } }

theorem witness_StepKeepsInvariant : (fullIn .chk1).Inv ∧ ∃ t, step (on (fullIn .chk1) [.seq]) = .next t :=
  ⟨fullIn_inv (.inr rfl), _, rfl⟩

theorem witness_SlotsMoveOnlyByTheTable : (fullIn .idle).Inv ∧
    result (fun b => (b.slot .s2).flags) (step (on (fullIn .idle) [.bus 0])) = some (.inflight, false, false, false) :=
  ⟨fullIn_inv (.inl rfl), by decide⟩

theorem witness_NonEmptySlotNeverOverwritten : (fullIn .chk1).Inv ∧
    (∃ t, step (on (fullIn .chk1) [.seq]) = .next t) ∧ ∀ v, Input.seq ≠ .rst v :=
  ⟨fullIn_inv (.inr rfl), ⟨_, rfl⟩, by simp⟩

theorem witness_FramesLeaveInPriorityOrder : (fullIn .idle).Inv ∧ (fullIn .idle).ph.busy = false ∧
    (∀ i, ((fullIn .idle).slot i).st ≠ .inflight) ∧ (fullIn .idle).sel = some .s2 ∧
    ((fullIn .idle).slot .s0).st ≠ .empty := by
  refine ⟨fullIn_inv (.inl rfl), rfl, ?_, by decide⟩
  intro i; cases i <;> decide

/-- `WAIT` with the target's abort resolved before it was sent meets the invariant. -/
theorem waiting_inv : (waiting aborted).Inv := by
  exact
    { slots :=
        { oneInFlight := by simp [slot_forall]; decide
          abortNeedsFrame := by rw [slot_forall]; decide
          heldIsOpen := by rw [slot_forall]; decide
          sentIsComplete := by rw [slot_forall]; decide
          abortOnlyOfTarget := by rw [slot_forall]; decide
          loadedFrame := by
            intro i _
            cases i <;> decide }
      tx :=
        { frameLength := fun _ => by decide
          writeIntoEmpty := by decide
          emptiedBySending := by
            intro i h
            cases i
            · rcases h with h | ⟨_, h⟩
              · cases h
              · exact absurd rfl h
            · exact .inl (by decide)
            · exact .inl (by decide)
          waitTarget := fun _ => .inr rfl
          waitTargetLoaded := fun _ => .inr rfl
          checkedOutranked := by
            intro i _
            right
            cases i <;> decide
          ages := full_ages } }

/-- The step clause: a state that meets the invariant, and its step sets `EVICTED`. -/
theorem witness_EvictedFrameIsStrictlyOutranked : (waiting aborted).Inv ∧ (waiting aborted).rs.evicted = false ∧
    result (fun b => b.rs.evicted) (step (on (waiting aborted) [.seq])) = some true := ⟨waiting_inv, by decide⟩

/-- Reset with F1 in `FA`: three loads of it, then F4's identifier in `FA`, a `TX` up to its `WAIT`, and the abort. -/
def evictionRun : State :=
  on (.resetWith { ResetValues.zero with fa := f1 })
    [inputOf (.cmd 0xA), .seq, inputOf (.cmd 0xA), .seq, inputOf (.cmd 0xA), .seq, (Line.wr (.fa .id) 0x0A000000).input,
      inputOf (.cmd 0xA), .seq, .seq, .seq, .seq, .ares .s2, .seq]

/-- A step at the end of that run sets `EVICTED`. -/
theorem evictionRun_evicts : (runN (fun _ => true) 13 evictionRun).map (fun t =>
    (t.blk.rs.evicted, result (fun b => b.rs.evicted) (step t))) = some (false, some true) := by decide

/-- The run clause. -/
theorem witness_EvictedFrameIsStrictlyOutranked_run : ∃ (v : ResetValues) (s t u : State),
    s.blk = Block.resetWith v ∧ RunWhile (fun _ => True) s t ∧ step t = .next u ∧ t.blk.rs.evicted = false ∧
    u.blk.rs.evicted = true := by
  cases h : runN (fun _ => true) 13 evictionRun with
  | none => have := evictionRun_evicts; rw [h] at this; cases this
  | some t =>
    have he := evictionRun_evicts
    rw [h] at he
    simp only [Option.map_some, Option.some.injEq, Prod.mk.injEq] at he
    cases hu : step t with
    | next u =>
      rw [hu] at he
      exact ⟨_, evictionRun, t, u, rfl, runWhile_of_runN (fun _ _ => trivial) h, hu, he.1, by simpa [result] using he.2⟩
    | fault r => cases r
    | refused r => rw [hu] at he; simp [result] at he

/-- A run from reset after which a slot holds a frame. -/
theorem witness_SlotInvariantsAlwaysHold : ∃ (v : ResetValues) (s t : State),
    s.blk = Block.resetWith v ∧ RunWhile (fun _ => True) s t ∧ (t.blk.slot .s0).st = .pending := by
  have hr : (runN (fun _ => true) 2 evictionRun).map (fun t => (t.blk.slot .s0).st) = some .pending := by decide
  cases h : runN (fun _ => true) 2 evictionRun with
  | none => rw [h] at hr; cases hr
  | some t =>
    rw [h] at hr
    exact ⟨_, evictionRun, t, rfl, runWhile_of_runN (fun _ _ => trivial) h, by simpa using hr⟩

/-- `WRITE` of F1 into slot 0 beside two slots of higher priority, then a `TX` of F4's identifier that aborts it. -/
def returnRun : State :=
  on { fullIn .write with mb0 := .resetWith f1.content, fa := f1 }
    [.seq, (Line.wr (.fa .id) 0x0A000000).input, inputOf (.cmd 0xA), .seq, .seq, .seq, .seq, .ares .s0, .seq]

/-- The check of `State.keepsContent .s0`. -/
def keeps (s : State) : Bool :=
  match s.inputs with
  | .rst _ :: _ => false
  | .seq :: _ => !(s.blk.ph == .write && s.blk.tgt == .s0)
  | _ => true

theorem keepsContent_of_keeps {s : State} (h : keeps s = true) : s.keepsContent .s0 := by
  constructor
  · intro v rest hi
    simp [keeps, hi] at h
  · rintro ⟨hh, hp, ht⟩
    cases hi : s.inputs with
    | nil => simp [hi] at hh
    | cons x rest =>
      simp only [hi, List.head?_cons, Option.some.injEq] at hh
      subst hh
      simp [keeps, hi, hp, ht] at h

theorem returnRun_returns : result (fun b => b.ph) (step returnRun) = some .idle ∧
    ((match step returnRun with
      | .next t => runN keeps 7 t
      | _ => none).map fun t : State =>
        ((t.inputs, t.blk.ph, t.blk.tgt), ((t.blk.slot .s0).abrq, (t.blk.slot .s0).txok,
          result (fun b => b.ev) (step t)))) = some (([.seq], .wait, .s0), (false, false, some f1)) := by decide

theorem witness_EvictedFrameReturnedUnchanged : ∃ s1 s2 s3 : State,
    returnRun.blk.ph = .write ∧ returnRun.blk.tgt = .s0 ∧ step returnRun = .next s1 ∧
    RunWhile (State.keepsContent .s0) s1 s2 ∧ s2.inputs = .seq :: [] ∧ s2.blk.ph = .wait ∧ s2.blk.tgt = .s0 ∧
    (s2.blk.slot .s0).abrq = false ∧ (s2.blk.slot .s0).txok = false ∧ step s2 = .next s3 := by
  obtain ⟨h1, h2⟩ := returnRun_returns
  cases e1 : step returnRun with
  | next s1 =>
    rw [e1] at h2
    simp only at h2
    cases e2 : runN keeps 7 s1 with
    | none => rw [e2] at h2; cases h2
    | some s2 =>
      rw [e2] at h2
      simp only [Option.map_some, Option.some.injEq, Prod.mk.injEq] at h2
      obtain ⟨⟨a, b, c⟩, d, e, f⟩ := h2
      cases e3 : step s2 with
      | next s3 =>
        exact ⟨s1, s2, s3, rfl, rfl, rfl, runWhile_of_runN (fun _ h => keepsContent_of_keeps h) e2, a, b, c, d, e, e3⟩
      | fault r => cases r
      | refused r => rw [e3] at f; simp [result] at f
  | fault r => cases r
  | refused r => rw [e1] at h1; simp [result] at h1

/-- A `TX` refused for its length, and a `TX` that a check turns away. -/
theorem witness_RetryAndRefusalChangeNoSlot :
    result (fun b => b.rs.err) (exec .tx (on { full with fa := { f4 with dlc := 9 } } [])) = some true ∧
    result (fun b => b.rs.retry) (step (on { fullIn .chk0 with fa := f1 } [.seq])) = some true := by decide

theorem witness_StepKeepsTheModelsOwnFields : ∃ t, step (on full [.bus 0]) = .next t := ⟨_, rfl⟩

end Sys2Proof.Tests.Slice0
end

/-! SUPPORT. Proofs about the functions of the state and the slot invariants (10_state.md R33 to R37, R43). -/

namespace Sys2Proof.Machine

/-! ### The arbitration key -/

theorem or_eq_add_of_dvd {n a x : Nat} (ha : 2 ^ n ∣ a) (hx : x < 2 ^ n) : a ||| x = a + x := by
  obtain ⟨q, rfl⟩ := ha
  exact (Nat.two_pow_add_eq_or_of_lt hx q).symm

theorem toNat_key_standard {w : Word} (h : (dec w).ide = false) :
    (key w).toNat = (dec w).base.toNat * 2 ^ 21 + (dec w).rtr.toNat * 2 ^ 20 := by
  have hb := (dec w).base.isLt
  have hr := Bool.toNat_le (dec w).rtr
  simp only [key, h, Bool.false_eq_true, if_false, BitVec.toNat_or, BitVec.toNat_shiftLeft, BitVec.toNat_setWidth,
    BitVec.toNat_ofBool, Nat.shiftLeft_eq]
  rw [or_eq_add_of_dvd (n := 21) (by omega) (by omega)]
  omega

theorem toNat_key_extended {w : Word} (h : (dec w).ide = true) :
    (key w).toNat = (dec w).base.toNat * 2 ^ 21 + 2 ^ 20 + 2 ^ 19 + (dec w).id.toNat % 2 ^ 18 * 2 +
      (dec w).rtr.toNat := by
  have hb := (dec w).base.isLt
  have hr := Bool.toNat_le (dec w).rtr
  simp only [key, h, if_true, BitVec.toNat_or, BitVec.toNat_shiftLeft, BitVec.toNat_setWidth,
    BitVec.toNat_ofBool, BitVec.extractLsb'_toNat, BitVec.toNat_ofNat, Nat.shiftLeft_eq, Nat.shiftRight_zero,
    Nat.reducePow, Nat.reduceMod, Nat.reduceMul]
  rw [or_eq_add_of_dvd (n := 21) (x := 1048576) (by omega) (by omega),
    or_eq_add_of_dvd (n := 20) (x := 524288) (by omega) (by omega),
    or_eq_add_of_dvd (n := 19) (a := _ + 524288) (by omega) (by omega),
    or_eq_add_of_dvd (n := 1) (by omega) (by omega)]
  omega

theorem toNat_id_standard {w : Word} (h : (dec w).ide = false) : (dec w).id.toNat = (dec w).base.toNat := by
  have hb := (dec w).base.isLt
  replace h : w.getLsbD 2 = false := h
  simp only [dec, h, Bool.false_eq_true, if_false, BitVec.toNat_setWidth] at hb ⊢
  omega

/-- The base identifier of an extended word is the upper 11 bits of its number (R111). -/
theorem toNat_base_extended {w : Word} (h : (dec w).ide = true) :
    (dec w).base.toNat = (dec w).id.toNat / 2 ^ 18 := by
  have hw := w.isLt
  replace h : w.getLsbD 2 = true := h
  simp only [dec, h, if_true, BitVec.toNat_setWidth, BitVec.extractLsb'_toNat, Nat.shiftRight_eq_div_pow]
  omega

theorem num3_congr {x y u v : Nat} (hlt : x < y ↔ u < v) (hgt : y < x ↔ v < u) : num3 x y = num3 u v := by
  simp only [num3, hlt, hgt]

/-- Comparing first by `x`, then by a second number below `k`, is comparing one number with the two as its digits. -/
theorem num3_orElse {x y u v k : Nat} {c : Prio} (hc : num3 u v = c) (hu : u < k) (hv : v < k) :
    (num3 x y).orElse c = num3 (k * x + u) (k * y + v) := by
  rcases Nat.lt_trichotomy x y with h | rfl | h
  · have := Nat.mul_le_mul_left k (Nat.succ_le_of_lt h)
    have hlt : k * x + u < k * y + v := by rw [Nat.mul_succ] at this; omega
    simp [num3, Prio.orElse, h, hlt]
  · subst hc
    simp [num3, Prio.orElse]
  · have := Nat.mul_le_mul_left k (Nat.succ_le_of_lt h)
    have hlt : k * y + v < k * x + u := by rw [Nat.mul_succ] at this; omega
    simp [num3, Prio.orElse, h, hlt, h.not_gt, hlt.not_gt]

/-- The priority order is the order of the arbitration keys as numbers (R119). -/
theorem prioCmp_eq_num3_key (a b : Word) : prioCmp a b = num3 (key a).toNat (key b).toNat := by
  have ra := Bool.toNat_le (dec a).rtr
  have rb := Bool.toNat_le (dec b).rtr
  cases ha : (dec a).ide <;> cases hb : (dec b).ide <;> simp only [prioCmp, ha, hb]
  · rw [toNat_key_standard ha, toNat_key_standard hb, toNat_id_standard ha, toNat_id_standard hb,
      num3_orElse rfl (k := 2) (by omega) (by omega)]
    exact num3_congr (by omega) (by omega)
  · rw [toNat_key_standard ha, toNat_key_extended hb, toNat_id_standard ha,
      num3_orElse (u := 0) (v := 1) (k := 2) (c := .higher) rfl (by omega) (by omega)]
    exact num3_congr (by omega) (by omega)
  · rw [toNat_key_extended ha, toNat_key_standard hb, toNat_id_standard hb,
      num3_orElse (u := 1) (v := 0) (k := 2) (c := .lower) rfl (by omega) (by omega)]
    exact num3_congr (by omega) (by omega)
  · rw [toNat_key_extended ha, toNat_key_extended hb, toNat_base_extended ha, toNat_base_extended hb,
      num3_orElse rfl (k := 2) (by omega) (by omega)]
    exact num3_congr (by omega) (by omega)

/-! ### The extended order on the slots -/

theorem mem_slots (i : Slot) : i ∈ slots := by cases i <;> decide

theorem mem_others {i j : Slot} : j ∈ i.others ↔ j ≠ i := by cases i <;> cases j <;> decide

theorem older_self (a : Age) (i : Slot) : a.older i i = false := by cases i <;> rfl

theorem older_trans {a : Age} (ha : a.acyclic) {i j k : Slot} (hij : a.older i j = true) (hjk : a.older j k = true) :
    a.older i k = true := by
  obtain ⟨x, y, z⟩ := a
  revert ha hij hjk
  unfold Age.acyclic
  cases i <;> cases j <;> cases k <;> cases x <;> cases y <;> cases z <;> decide

/-- The arbitration key of what a slot holds, as a number (R119). -/
def Block.slotKey (b : Block) (i : Slot) : Nat := (key (b.slot i).content.idWord).toNat

/-- The extended order is lexicographic: the smaller key first, then the earlier load (R35). -/
theorem outranks_iff (b : Block) (i j : Slot) :
    b.outranks i j = true ↔ b.slotKey i < b.slotKey j ∨ b.slotKey i = b.slotKey j ∧ b.age.older i j = true := by
  simp only [Block.outranks, prioCmp_eq_num3_key, Block.slotKey]
  generalize (key (b.slot i).content.idWord).toNat = x
  generalize (key (b.slot j).content.idWord).toNat = y
  rcases Nat.lt_trichotomy x y with h | h | h
  · simp [num3, h]
  · simp [num3, h]
  · simp [num3, h, h.not_gt, h.ne']

theorem outranks_irrefl (b : Block) (i : Slot) : b.outranks i i = false := by
  rw [← Bool.not_eq_true, outranks_iff]
  simp [older_self]

theorem outranks_total (b : Block) {i j : Slot} (h : i ≠ j) : b.outranks i j = true ∨ b.outranks j i = true := by
  rw [outranks_iff, outranks_iff, older_swap b.age h]
  cases b.age.older j i <;> simp <;> omega

theorem outranks_trans {b : Block} (ha : b.age.acyclic) {i j k : Slot} (hij : b.outranks i j = true)
    (hjk : b.outranks j k = true) : b.outranks i k = true := by
  rw [outranks_iff] at *
  rcases hij with hij | ⟨hij, oij⟩ <;> rcases hjk with hjk | ⟨hjk, ojk⟩
  · exact .inl (by omega)
  · exact .inl (by omega)
  · exact .inl (by omega)
  · exact .inr ⟨by omega, older_trans ha oij ojk⟩

/-- A strict total order on the slots has a first element in every set of slots that is not empty. -/
theorem exists_first {r : Slot → Slot → Prop} (hirr : ∀ i, ¬r i i) (htot : ∀ i j, i ≠ j → r i j ∨ r j i)
    (htrans : ∀ i j k, r i j → r j k → r i k) {E : Slot → Prop} (hE : ∃ i, E i) :
    ∃ i, E i ∧ ∀ j, j ≠ i → E j → r i j := by
  have : Finite Slot := Finite.of_injective Slot.code (by intro i j; cases i <;> cases j <;> decide)
  have : IsTrans Slot r := ⟨htrans⟩
  have : Std.Irrefl r := ⟨hirr⟩
  obtain ⟨i, hi, hmin⟩ := (Finite.wellFounded_of_trans_of_irrefl r).has_min {i | E i} hE
  exact ⟨i, hi, fun j hj hEj => (htot i j hj.symm).resolve_right (hmin j hEj)⟩

theorem exists_outranks_rest {b : Block} (ha : b.age.acyclic) {E : Slot → Prop} (hE : ∃ i, E i) :
    ∃ i, E i ∧ ∀ j, j ≠ i → E j → b.outranks i j = true :=
  exists_first (fun i => by simp [outranks_irrefl]) (fun _ _ => outranks_total b)
    (fun _ _ _ => outranks_trans ha) hE

theorem exists_outranked_by_rest {b : Block} (ha : b.age.acyclic) :
    ∃ i, ∀ j, j ≠ i → b.outranks j i = true := by
  obtain ⟨i, -, h⟩ := exists_first (r := fun i j => b.outranks j i = true) (E := fun _ => True)
    (fun i => by simp [outranks_irrefl]) (fun _ _ h => outranks_total b h.symm)
    (fun _ _ _ h1 h2 => outranks_trans ha h2 h1) ⟨.s0, trivial⟩
  exact ⟨i, fun j hj => h j hj trivial⟩

/-- With the age bits in order every other slot outranks the lowest one (R36). -/
theorem outranks_lowest {b : Block} (ha : b.age.acyclic) {j : Slot} (hj : j ≠ b.lowest) :
    b.outranks j b.lowest = true := by
  obtain ⟨i, hi⟩ := exists_outranked_by_rest ha
  have hsome : (slots.find? fun i => i.others.all fun j => b.outranks j i).isSome = true := by
    rw [List.find?_isSome]
    exact ⟨i, mem_slots i, by simpa [mem_others] using hi⟩
  obtain ⟨k, hk⟩ := Option.isSome_iff_exists.1 hsome
  have hl : b.lowest = k := by simp [Block.lowest, hk]
  have hall := List.find?_some hk
  simp only [List.all_eq_true, mem_others] at hall
  rw [hl] at hj ⊢
  exact hall j hj

/-! ### CODE -/

theorem code_of_full (p : FreePick) {b : Block} (h : ∀ i, (b.slot i).st ≠ .empty) : b.code p = b.lowest := by
  refine if_neg ?_
  rw [tme_ne_zero_iff]
  rintro ⟨i, hi⟩
  exact h i hi

/-- The default FREE_PICK takes the member of lowest index (R36). -/
theorem pick_lowest_le {e : Slot → Bool} {i : Slot} (h : e i = true) :
    (FreePick.lowest.pick (e .s0) (e .s1) (e .s2)).code.toNat ≤ i.code.toNat := by
  cases i with
  | s0 => rw [h]; cases e .s1 <;> cases e .s2 <;> decide
  | s1 => rw [h]; cases e .s0 <;> cases e .s2 <;> decide
  | s2 => rw [h]; cases e .s0 <;> cases e .s1 <;> decide

theorem code_lowest_le {b : Block} {i : Slot} (h : (b.slot i).st = .empty) :
    (b.code .lowest).code.toNat ≤ i.code.toNat := by
  rw [Block.code, if_pos ((tme_ne_zero_iff b).2 ⟨i, h⟩)]
  exact pick_lowest_le (e := fun i => (b.slot i).isEmpty) (by simp [Mailbox.isEmpty, h])

theorem slotCode_ne_three (i : Slot) : i.code ≠ 3 := by cases i <;> decide

/-- Settles O35: an empty slot is picked by whatever FREE_PICK; with none empty, the age bits in order make the extended
order a strict total one, which has a lowest slot. -/
theorem codeIsEmptyOrLowest : Obligations.CodeIsEmptyOrLowest := by
  intro p b
  refine ⟨code_of_empty p, fun i => code_lowest_le, slotCode_ne_three _, fun hfull ha j hj => ?_⟩
  rw [code_of_full p hfull] at hj ⊢
  exact outranks_lowest ha hj

/-! ### SEL -/

theorem eligible_iff (m : Mailbox) : m.eligible = true ↔ m.st = .pending ∧ m.abrq = false := by
  simp [Mailbox.eligible]

theorem sel_eq_none_of_inflight {b : Block} {i : Slot} (h : (b.slot i).st = .inflight) : b.sel = none := by
  have : b.inflight ≠ none := fun hn => (inflight_eq_none_iff b).1 hn i h
  rw [Block.sel, if_pos (Option.isSome_iff_ne_none.2 this)]

theorem sel_of_none_inflight {b : Block} (h : ∀ i, (b.slot i).st ≠ .inflight) :
    b.sel = slots.find? fun i =>
      (b.slot i).eligible && i.others.all fun j => !(b.slot j).eligible || b.outranks i j := by
  rw [Block.sel, (inflight_eq_none_iff b).2 h]
  rfl

theorem not_inflight_of_sel {b : Block} {i : Slot} (h : b.sel = some i) (j : Slot) : (b.slot j).st ≠ .inflight :=
  (st_of_sel h).2.2 j

/-- A selected slot is eligible and outranks every other eligible slot (R37). -/
theorem outranks_of_sel {b : Block} {i : Slot} (h : b.sel = some i) :
    (b.slot i).eligible = true ∧ ∀ j, j ≠ i → (b.slot j).eligible = true → b.outranks i j = true := by
  rw [sel_of_none_inflight (not_inflight_of_sel h)] at h
  have hfirst := List.find?_some h
  simp only [Bool.and_eq_true, List.all_eq_true, mem_others, Bool.or_eq_true, Bool.not_eq_true'] at hfirst
  obtain ⟨hi, hrest⟩ := hfirst
  exact ⟨hi, fun j hj hej => (hrest j hj).resolve_left (by simp [hej])⟩

/-- With no slot in flight and the age bits in order, some eligible slot is selected if there is one (R37). -/
theorem sel_ne_none {b : Block} (ha : b.age.acyclic) (hfree : ∀ i, (b.slot i).st ≠ .inflight)
    (he : ∃ i, (b.slot i).eligible = true) : b.sel ≠ none := by
  obtain ⟨i, hi, hrest⟩ := exists_outranks_rest ha he
  rw [sel_of_none_inflight hfree, ← Option.isSome_iff_ne_none, List.find?_isSome]
  refine ⟨i, mem_slots i, ?_⟩
  simp only [hi, Bool.true_and, List.all_eq_true, mem_others, Bool.or_eq_true, Bool.not_eq_true']
  intro j hj
  cases hej : (b.slot j).eligible
  · exact .inl rfl
  · exact .inr (hrest j hj hej)

theorem sel_eq_none_iff {b : Block} (ha : b.age.acyclic) :
    b.sel = none ↔ (∃ i, (b.slot i).st = .inflight) ∨ ∀ i, (b.slot i).eligible ≠ true := by
  constructor
  · intro h
    by_contra hno
    push Not at hno
    obtain ⟨hfree, he⟩ := hno
    exact sel_ne_none ha hfree he h
  · rintro (⟨i, hi⟩ | hno)
    · exact sel_eq_none_of_inflight hi
    · exact Option.eq_none_iff_forall_ne_some.2 fun i hi => hno i (outranks_of_sel hi).1

/-- `STATUS.SELV` and `STATUS.SEL` stand at bits 26:24 (R38). -/
theorem statusWord_selBits (p : FreePick) (b : Block) : (b.statusWord p).extractLsb' 24 3 = selBits b.sel := by
  unfold Block.statusWord
  repeat rw [BitVec.extractLsb'_append_eq_of_le (by decide)]
  exact BitVec.extractLsb'_append_eq_right

theorem statusWord_selValid (p : FreePick) (b : Block) : (b.statusWord p).getLsbD 26 = b.sel.isSome := by
  have h : (b.statusWord p).getLsbD 26 = ((b.statusWord p).extractLsb' 24 3).getLsbD 2 := by simp
  rw [h, statusWord_selBits]
  cases b.sel with
  | none => rfl
  | some i => cases i <;> rfl

theorem statusWord_selIdx (p : FreePick) {b : Block} {i : Slot} (h : b.sel = some i) :
    (b.statusWord p).extractLsb' 24 2 = i.code := by
  have hs : (b.statusWord p).extractLsb' 24 2 = ((b.statusWord p).extractLsb' 24 3).extractLsb' 0 2 := by
    apply BitVec.eq_of_getLsbD_eq
    intro k hk
    have hk3 : k < 3 := by omega
    simp only [BitVec.getLsbD_extractLsb', Nat.zero_add, hk, hk3, decide_true, Bool.true_and]
  rw [hs, statusWord_selBits, h]
  cases i <;> rfl

/-- Settles O37: the eligible slots, when there are any, have a first one in the extended order, which is the one `SEL`
finds. -/
theorem selIsFirstEligible : Obligations.SelIsFirstEligible := by
  intro b ha
  refine ⟨fun p => ⟨?_, ?_, fun i hi => ⟨by simp [Block.busPort, hi], statusWord_selIdx p hi⟩⟩, ?_, fun i hi => ?_⟩
  · exact Option.isSome_iff_ne_none
  · rw [statusWord_selValid, Option.isSome_iff_ne_none]
  · simpa only [ne_eq, eligible_iff] using sel_eq_none_iff ha
  · obtain ⟨he, hrest⟩ := outranks_of_sel hi
    obtain ⟨hpend, habrq⟩ := (eligible_iff _).1 he
    exact ⟨hpend, habrq, fun j hj hp hr => hrest j hj ((eligible_iff _).2 ⟨hp, hr⟩)⟩

/-! ### Canonical identifiers -/

/-- `canon` is a projection (R82). -/
theorem canon_canon (w : Word) : canon (canon w) = canon w := by
  cases h : w.getLsbD 2
  · have hc : canon w = w &&& 0xFFE00002#32 := by rw [canon, if_neg (by rw [h]; decide)]
    have hbit : (canon w).getLsbD 2 = false := by rw [hc]; simp
    rw [canon, hbit, hc]
    simp [BitVec.and_assoc]
  · have hc : canon w = w &&& 0xFFFFFFFE#32 := by rw [canon, if_pos h]
    have hbit : (canon w).getLsbD 2 = true := by rw [hc, BitVec.getLsbD_and, h]; rfl
    rw [canon, hbit, hc]
    simp [BitVec.and_assoc]

theorem getLsbD_canon_zero (w : Word) : (canon w).getLsbD 0 = false := by
  unfold canon
  split <;> simp

/-- Nothing of a canonical identifier is lost in a slot, which holds no bit 0 (R21, R157). -/
theorem idWord_content (f : Frame) : f.content.idWord = canon f.id := by
  apply BitVec.eq_of_getLsbD_eq
  intro k hk
  simp only [Frame.content, Content.idWord, BitVec.getLsbD_append, BitVec.getLsbD_extractLsb']
  rcases k with _ | k
  · rw [getLsbD_canon_zero]
    rfl
  · simp [Nat.add_comm 1 k]
    omega

theorem isCanonical_idWord_content (f : Frame) : isCanonical f.content.idWord = true := by
  simp [isCanonical, idWord_content, canon_canon]

/-! ### The phase, the target and the frame being sent -/

@[simp] theorem ares_ph (b : Block) (i : Slot) : (b.ares i).ph = b.ph := setSlot_ph ..
@[simp] theorem ares_tgt (b : Block) (i : Slot) : (b.ares i).tgt = b.tgt := setSlot_tgt ..
@[simp] theorem ares_fa (b : Block) (i : Slot) : (b.ares i).fa = b.fa := setSlot_fa ..
@[simp] theorem bstart_ph (b : Block) : b.bstart.ph = b.ph := by unfold Block.bstart; split <;> simp
@[simp] theorem bstart_tgt (b : Block) : b.bstart.tgt = b.tgt := by unfold Block.bstart; split <;> simp
@[simp] theorem bstart_fa (b : Block) : b.bstart.fa = b.fa := by unfold Block.bstart; split <;> simp
@[simp] theorem bdone_ph (b : Block) : b.bdone.ph = b.ph := by unfold Block.bdone; split <;> simp
@[simp] theorem bdone_tgt (b : Block) : b.bdone.tgt = b.tgt := by unfold Block.bdone; split <;> simp
@[simp] theorem bdone_fa (b : Block) : b.bdone.fa = b.fa := by unfold Block.bdone; split <;> simp
@[simp] theorem checkSlot_fa (i : Slot) (n : Phase) (b : Block) : (checkSlot i n b).fa = b.fa := by
  unfold checkSlot; split <;> rfl
@[simp] theorem writeTarget_fa (b : Block) : (writeTarget b).fa = b.fa := setSlot_fa ..

/-- A `SEQ` step is taken with a `TX` in progress and keeps the frame being sent (R160). -/
theorem seqStep_busy_fa {b c : Block} (h : b.seqStep = some c) : b.ph.busy = true ∧ c.fa = b.fa := by
  unfold Block.seqStep at h
  split at h <;> rename_i hp <;> simp only [Option.some.injEq, reduceCtorEq] at h <;> subst h <;>
    refine ⟨by rw [hp]; rfl, ?_⟩
  · exact checkSlot_fa ..
  · exact checkSlot_fa ..
  · exact checkSlot_fa ..
  · exact abortTarget_fa b
  · split
    · rfl
    · exact readBack_fa b
  · exact writeTarget_fa b

theorem seqStep_of_abort {b : Block} (h : b.ph = .abort) : b.seqStep = some (abortTarget b) := by
  simp only [Block.seqStep, h]

/-- A step held in `WAIT` changes nothing (R156). -/
theorem seqStep_of_held {b : Block} (hw : b.ph = .wait) (ha : (b.slot b.tgt).abrq = true) : b.seqStep = some b := by
  simp only [Block.seqStep, hw, ha, if_true]

/-- What a command can do to the phase: keep it, halt, or start a `TX` whose frame has passed the length check
(R151). -/
theorem effectOf_phase (p : FreePick) (i : Instr) (b : Block) :
    (effectOf p i b).ph = b.ph ∨ (effectOf p i b).ph = .halt ∨
      i = .tx ∧ b.fa.dlc.toNat ≤ 8 ∧ (effectOf p i b).fa = b.fa := by
  cases i with
  | tx =>
    by_cases hlen : b.fa.dlc.toNat > maxLength
    · exact .inr (.inl (by simp [effectOf, txEffect, hlen]))
    · exact .inr (.inr ⟨rfl, Nat.not_lt.1 hlen, by simp [effectOf, txEffect, hlen]⟩)
  | mkstd => simp only [effectOf, mkstdEffect]; split <;> exact .inl rfl
  | mkext => simp only [effectOf, mkextEffect]; split <;> exact .inl rfl
  | mkdata x =>
    simp only [effectOf, mkdataEffect]
    split
    · exact .inr (.inl rfl)
    · exact .inl (setFrame_ph ..)
  | mkrmt x =>
    simp only [effectOf, mkrmtEffect]
    split
    · exact .inl rfl
    · exact .inl (setFrame_ph ..)
  | _ => exact .inl rfl

/-- While a `TX` is in progress the frame being sent has passed the length check (R151, 20_memory.md R67). -/
def Block.frameChecked (b : Block) : Prop := b.ph.busy = true → b.fa.dlc.toNat ≤ 8

theorem frameChecked_of_not_busy {b : Block} (h : b.ph.busy = false) : b.frameChecked := by
  simp [Block.frameChecked, h]

theorem move_frameChecked {p : FreePick} {x : Input} {b c : Block} (m : Move p x b c) (h : b.frameChecked) :
    c.frameChecked := by
  cases m with
  | stay => exact h
  | store ha => exact frameChecked_of_not_busy (by rw [storeReg_ph, ha]; rfl)
  | @command v i b ha =>
    rcases effectOf_phase p i b.clearResults with hp | hp | ⟨-, hlen, hfa⟩
    · exact frameChecked_of_not_busy (by rw [hp, clearResults_ph, ha]; rfl)
    · exact frameChecked_of_not_busy (by rw [hp]; rfl)
    · exact fun _ => by rw [hfa]; exact hlen
  | illegal => exact frameChecked_of_not_busy rfl
  | seq hc =>
    obtain ⟨hbusy, hfa⟩ := seqStep_busy_fa hc
    exact fun _ => by rw [hfa]; exact h hbusy
  | ares => simpa [Block.frameChecked] using h
  | bstart => simpa [Block.frameChecked] using h
  | bdone => simpa [Block.frameChecked] using h
  | rst => exact frameChecked_of_not_busy rfl

/-! ### The slot invariants -/

@[simp] theorem slot_resetWith_st (v : ResetValues) (i : Slot) : ((Block.resetWith v).slot i).st = .empty := by
  cases i <;> rfl
@[simp] theorem slot_resetWith_abrq (v : ResetValues) (i : Slot) : ((Block.resetWith v).slot i).abrq = false := by
  cases i <;> rfl
@[simp] theorem slot_resetWith_rqcp (v : ResetValues) (i : Slot) : ((Block.resetWith v).slot i).rqcp = false := by
  cases i <;> rfl
@[simp] theorem slot_resetWith_txok (v : ResetValues) (i : Slot) : ((Block.resetWith v).slot i).txok = false := by
  cases i <;> rfl

theorem resetWith_slotsSound (v : ResetValues) : (Block.resetWith v).SlotsSound where
  oneInFlight _ _ h := by simp at h
  abortNeedsFrame _ h := by simp at h
  heldIsOpen _ h := by simp at h
  sentIsComplete _ h := by simp at h
  abortOnlyOfTarget _ h := by simp at h
  loadedFrame _ h := by simp [Mailbox.everLoaded] at h

/-- Only `BSTART` brings a slot in flight, the selected one (R165). -/
theorem inflight_of_move {p : FreePick} {x : Input} {b c : Block} (m : Move p x b c) (hx : ∀ v, x ≠ .rst v)
    {i : Slot} (h : (c.slot i).st = .inflight) : (b.slot i).st = .inflight ∨ b.sel = some i := by
  rcases move_slot m hx i with e | ⟨-, -, -, -, e⟩ | ⟨-, -, -, e⟩ | ⟨-, -, -, e⟩ | ⟨-, hsel, -⟩ | ⟨-, -, e⟩
  · exact .inl (e ▸ h)
  · rw [e] at h; exact .inl h
  · rw [e] at h; cases h
  · rw [e] at h; cases h
  · exact .inr hsel
  · rw [e] at h; cases h

/-- Only phase `ABORT` asks for the abort of a slot, its target (R155). -/
theorem abrq_of_move {p : FreePick} {x : Input} {b c : Block} (m : Move p x b c) (hx : ∀ v, x ≠ .rst v)
    {i : Slot} (h : (c.slot i).abrq = true) : (b.slot i).abrq = true ∨ x = .seq ∧ b.ph = .abort ∧ i = b.tgt := by
  rcases move_slot m hx i with e | ⟨hs, hp, ht, -, -⟩ | ⟨-, -, -, e⟩ | ⟨-, -, -, e⟩ | ⟨-, -, e⟩ | ⟨-, -, e⟩
  · exact .inl (e ▸ h)
  · exact .inr ⟨hs, hp, ht⟩
  · rw [e] at h; cases h
  · rw [e] at h; cases h
  · rw [e] at h; exact .inl h
  · rw [e] at h; cases h

/-- The sequencer does not leave `WAIT` while the abort of its target is pending (R156). -/
theorem move_waiting {p : FreePick} {x : Input} {b c : Block} (m : Move p x b c) (hx : ∀ v, x ≠ .rst v)
    (hw : b.ph = .wait) (ha : (b.slot b.tgt).abrq = true) : c.ph = .wait ∧ c.tgt = b.tgt := by
  have hna : ¬b.accepting := by simp [Block.accepting, hw]
  cases m with
  | stay => exact ⟨hw, rfl⟩
  | store h => exact absurd h hna
  | command h => exact absurd h hna
  | illegal h => exact absurd h hna
  | seq h =>
    rw [seqStep_of_held hw ha, Option.some.injEq] at h
    exact h ▸ ⟨hw, rfl⟩
  | ares => simp [hw]
  | bstart => simp [hw]
  | bdone => simp [hw]
  | rst v => exact absurd rfl (hx v)

/-- What the slot invariants (b), (c), (d) and (g) say of one slot. -/
structure Mailbox.Sound (m : Mailbox) : Prop where
  abortNeedsFrame : m.abrq = true → m.st ≠ .empty
  heldIsOpen : m.st ≠ .empty → m.rqcp = false ∧ m.txok = false
  sentIsComplete : m.txok = true → m.rqcp = true
  loadedFrame : m.everLoaded → m.content.dlc.toNat ≤ 8 ∧ isCanonical m.content.idWord = true

theorem Block.SlotsSound.slot {b : Block} (h : b.SlotsSound) (i : Slot) : (b.slot i).Sound :=
  ⟨h.abortNeedsFrame i, h.heldIsOpen i, h.sentIsComplete i, h.loadedFrame i⟩

theorem everLoaded_of_not_empty {m : Mailbox} (h : m.st ≠ .empty) : m.everLoaded := .inl h

theorem loaded_sound {f : Frame} (h : f.dlc.toNat ≤ 8) : (Mailbox.loaded f).Sound where
  abortNeedsFrame := by simp
  heldIsOpen := by simp
  sentIsComplete := by simp
  loadedFrame _ := ⟨h, isCanonical_idWord_content f⟩

theorem emptied_sound {m : Mailbox} (h : m.Sound) (hst : m.st ≠ .empty) (sent : Bool) : (m.emptied sent).Sound where
  abortNeedsFrame := by simp
  heldIsOpen := by simp
  sentIsComplete := by simp
  loadedFrame _ := h.loadedFrame (everLoaded_of_not_empty hst)

theorem abortRequested_sound {m : Mailbox} (h : m.Sound) (hst : m.st ≠ .empty) :
    ({ m with abrq := true } : Mailbox).Sound where
  abortNeedsFrame _ := hst
  heldIsOpen := h.heldIsOpen
  sentIsComplete := h.sentIsComplete
  loadedFrame := h.loadedFrame

theorem started_sound {m : Mailbox} (h : m.Sound) (hst : m.st ≠ .empty) :
    ({ m with st := .inflight } : Mailbox).Sound where
  abortNeedsFrame _ := by simp
  heldIsOpen _ := h.heldIsOpen hst
  sentIsComplete := h.sentIsComplete
  loadedFrame _ := h.loadedFrame (everLoaded_of_not_empty hst)

theorem move_slot_sound {p : FreePick} {x : Input} {b c : Block} (m : Move p x b c) (hx : ∀ v, x ≠ .rst v)
    (hf : b.frameChecked) {i : Slot} (h : (b.slot i).Sound) : (c.slot i).Sound := by
  rcases move_slot m hx i with
    e | ⟨-, -, -, hst, e⟩ | ⟨-, hp, -, e⟩ | ⟨-, hst, -, e⟩ | ⟨-, hsel, e⟩ | ⟨-, hst, e⟩ <;> rw [e]
  · exact h
  · exact abortRequested_sound h hst
  · exact loaded_sound (hf (by rw [hp]; rfl))
  · exact emptied_sound h (by simp [hst]) false
  · exact started_sound h (by simp [(st_of_sel hsel).1])
  · exact emptied_sound h (by simp [hst]) true

/-- Every move keeps the slot invariants R43 (a) to (d), (f) and (g). -/
theorem move_slotsSound {p : FreePick} {x : Input} {b c : Block} (m : Move p x b c) (hf : b.frameChecked)
    (h : b.SlotsSound) : c.SlotsSound := by
  by_cases hrst : ∃ v, x = .rst v
  · obtain ⟨v, rfl⟩ := hrst
    cases m
    exact resetWith_slotsSound v
  have hx : ∀ v, x ≠ .rst v := fun v hv => hrst ⟨v, hv⟩
  have hsound : ∀ i, (c.slot i).Sound := fun i => move_slot_sound m hx hf (h.slot i)
  refine ⟨fun i j hi hj => ?_, fun i => (hsound i).abortNeedsFrame, fun i => (hsound i).heldIsOpen,
    fun i => (hsound i).sentIsComplete, fun i hi => ?_, fun i => (hsound i).loadedFrame⟩
  · rcases inflight_of_move m hx hi with oi | si <;> rcases inflight_of_move m hx hj with oj | sj
    · exact h.oneInFlight i j oi oj
    · exact absurd oi (not_inflight_of_sel sj i)
    · exact absurd oj (not_inflight_of_sel si j)
    · exact Option.some.inj (si.symm.trans sj)
  · rcases abrq_of_move m hx hi with hold | ⟨rfl, hp, ht⟩
    · obtain ⟨hw, rfl⟩ := h.abortOnlyOfTarget i hold
      exact move_waiting m hx hw hold
    · cases m with
      | seq hc =>
        rw [seqStep_of_abort hp, Option.some.injEq] at hc
        exact hc ▸ ⟨abortTarget_ph b, (abortTarget_tgt b).trans ht.symm⟩

/-- The slot invariants with what (g) rests on when `WRITE` loads a slot. -/
structure Block.SlotsKept (b : Block) : Prop where
  slots : b.SlotsSound
  frame : b.frameChecked

theorem resetWith_slotsKept (v : ResetValues) : (Block.resetWith v).SlotsKept :=
  ⟨resetWith_slotsSound v, frameChecked_of_not_busy rfl⟩

theorem move_slotsKept {p : FreePick} {x : Input} {b c : Block} (m : Move p x b c) (h : b.SlotsKept) : c.SlotsKept :=
  ⟨move_slotsSound m h.frame h.slots, move_frameChecked m h.frame⟩

/-! ### Runs -/

/-- What every step keeps holds at the end of a run that starts with it. -/
theorem runWhile_keeps {P I : State → Prop} (hstep : ∀ s t, I s → step s = .next t → I t) {s t : State}
    (h : RunWhile P s t) (hs : I s) : I t := by
  induction h with
  | refl => exact hs
  | cons _ hst _ ih => exact ih (hstep _ _ hs hst)

/-- What every move of the block keeps is kept by every step. -/
theorem step_keeps_of_move {I : Block → Prop} (hmove : ∀ p x b c, Move p x b c → I b → I c) {s t : State}
    (hs : I s.blk) (h : step s = .next t) : I t.blk := by
  rcases step_move h with ⟨-, rfl⟩ | ⟨x, rest, -, m⟩
  · exact hs
  · exact hmove _ _ _ _ m hs

theorem slotsSound_of_run {P : State → Prop} {v : ResetValues} {s t : State} (hs : s.blk = Block.resetWith v)
    (h : RunWhile P s t) : t.blk.SlotsSound := by
  have hinv : t.blk.SlotsKept :=
    runWhile_keeps (I := fun s => s.blk.SlotsKept) (fun _ _ => step_keeps_of_move fun _ _ _ _ => move_slotsKept) h
      (hs ▸ resetWith_slotsKept v)
  exact hinv.slots

theorem slotStateCode_ne_three (st : SlotState) : st.code ≠ 3 := by cases st <;> decide

theorem prioCode_ne_three (o : Prio) : o.code ≠ 3 := by cases o <;> decide

/-- Settles O53: every move keeps the slot invariants together with the length check of the frame being sent, on which
(g) rests when `WRITE` loads a slot; (e) holds by the types. -/
theorem slotInvariantsAlwaysHold : Obligations.SlotInvariantsAlwaysHold := by
  intro v s t hs hrun
  obtain ⟨ha, hb, hc, hd, hf, hg⟩ := slotsSound_of_run hs hrun
  exact ⟨ha, hb, hc, hd, ⟨fun i => slotStateCode_ne_three _, slotCode_ne_three _, prioCode_ne_three _⟩, hf, hg⟩

end Sys2Proof.Machine

/-! SUPPORT. Proofs about the host port (20_memory.md R60 to R72). -/

namespace Sys2Proof

/-! ### The register map -/

theorem Access.fullWidth_iff (a : Access) : a.fullWidth = true ↔ a.size = .word := by simp [Access.fullWidth]

theorem Access.aligned_iff (a : Access) : a.aligned = true ↔ a.off.toNat % 4 = 0 := by
  simp [Access.aligned, ← BitVec.toNat_inj]

theorem fieldAt_eq_none_iff {f : Field → Reg} {k : Nat} :
    fieldAt f k = none ↔ k ≠ 0x0 ∧ k ≠ 0x4 ∧ k ≠ 0x8 ∧ k ≠ 0xC := by
  unfold fieldAt; split <;> simp_all

theorem exists_field_of_fieldAt {f : Field → Reg} {k : Nat} {r : Reg} (h : fieldAt f k = some r) : ∃ x, r = f x := by
  unfold fieldAt at h
  split at h <;> simp only [Option.some.injEq, reduceCtorEq] at h <;> exact ⟨_, h.symm⟩

/-- The aligned offsets without a register (R61). -/
theorem regAt_eq_none_iff {off : BitVec 8} (h : off.toNat % 4 = 0) :
    regAt off = none ↔ off.toNat = 0x18 ∨ off.toNat = 0x1C ∨ 0x80 ≤ off.toNat := by
  have hlt := off.isLt
  unfold regAt
  split <;> simp only [fieldAt_eq_none_iff, reduceCtorEq, false_iff, true_iff]
  -- no row of the map matches: the quotient is 8 or more, or it is row 1 beyond `OPB`
  case h_13 _ _ h2 h3 h4 h5 h6 h7 h00 h04 h08 h0C h10 h14 =>
    have hframes : ¬(2 ≤ off.toNat / 16 ∧ off.toNat / 16 ≤ 7) := by
      rintro ⟨hlo, hhi⟩
      rcases (by omega : off.toNat / 16 = 2 ∨ off.toNat / 16 = 3 ∨ off.toNat / 16 = 4 ∨ off.toNat / 16 = 5 ∨
        off.toNat / 16 = 6 ∨ off.toNat / 16 = 7) with hq | hq | hq | hq | hq | hq
      exacts [h2 hq, h3 hq, h4 hq, h5 hq, h6 hq, h7 hq]
    have hrow0 : off.toNat / 16 ≠ 0 := fun hq => by
      rcases (by omega : off.toNat % 16 = 0x0 ∨ off.toNat % 16 = 0x4 ∨ off.toNat % 16 = 0x8 ∨ off.toNat % 16 = 0xC)
        with hk | hk | hk | hk
      exacts [h00 hq hk, h04 hq hk, h08 hq hk, h0C hq hk]
    have hrow1 : off.toNat / 16 = 1 → off.toNat % 16 ≠ 0x0 ∧ off.toNat % 16 ≠ 0x4 := fun hq => ⟨h10 hq, h14 hq⟩
    omega
  all_goals omega

/-- The offsets of the registers marked `-` under W (R61). -/
theorem writable_regAt_iff {off : BitVec 8} {r : Reg} (h : regAt off = some r) :
    r.writable = false ↔ off.toNat = 0x04 ∨ off.toNat = 0x08 ∨ off.toNat = 0x0C ∨ 0x40 ≤ off.toNat := by
  unfold regAt at h
  split at h
  case h_13 => cases h
  case h_7 | h_8 | h_9 | h_10 | h_11 | h_12 =>
    obtain ⟨x, rfl⟩ := exists_field_of_fieldAt h
    simp only [Reg.writable, true_iff, Bool.true_eq_false, false_iff]
    omega
  all_goals
    cases h
    simp only [Reg.writable, true_iff, Bool.true_eq_false, false_iff]
    omega

/-- The registers the host may write: `CMD`, the operands and the frame registers (R61). -/
theorem Reg.writable_iff {r : Reg} :
    r.writable = true ↔ r = .cmd ∨ r = .opa ∨ r = .opb ∨ (∃ f, r = .fa f) ∨ ∃ f, r = .fb f := by
  cases r <;> simp [Reg.writable]

/-! ### The accesses that reach no register -/

theorem Access.target_of_not_wellFormed {a : Access} (h : a.wellFormed = false) : a.target = none := by
  simp [Access.target, show (a.fullWidth && a.aligned) = false from h]

theorem Access.target_read {off : BitVec 8} {size : Size} (h : (Access.read off size).wellFormed = true) :
    (Access.read off size).target = regAt off := if_pos h

theorem Access.target_write {off : BitVec 8} {size : Size} {v : Word} (h : (Access.write off size v).wellFormed = true) :
    (Access.write off size v).target = (regAt off).filter Reg.writable := by
  refine (if_pos h).trans ?_
  cases hr : regAt off <;> simp [Access.off, hr, Option.filter]

/-- An access reaches no register exactly for the causes of R66, the map left as `regAt`. -/
theorem Access.target_eq_none_iff (a : Access) :
    a.target = none ↔ a.wellFormed = false ∨ regAt a.off = none ∨
      (∃ off size v, a = .write off size v) ∧ ∃ r, regAt a.off = some r ∧ r.writable = false := by
  cases hwf : a.wellFormed with
  | false => simp [target_of_not_wellFormed hwf]
  | true =>
    cases a with
    | read off size => simp [target_read hwf, Access.off]
    | write off size v => cases hr : regAt off <;> simp [target_write hwf, Access.off, hr, Option.filter]

theorem Access.wellFormed_eq_false_iff (a : Access) :
    a.wellFormed = false ↔ a.size ≠ .word ∨ a.off.toNat % 4 ≠ 0 := by
  rw [← Bool.not_eq_true, Access.wellFormed, Bool.and_eq_true, fullWidth_iff, aligned_iff, not_and_or]

/-- The causes of R66 as numbers. -/
theorem Access.target_eq_none_iff_off (a : Access) :
    a.target = none ↔ a.size ≠ .word ∨ a.off.toNat % 4 ≠ 0 ∨ a.off.toNat = 0x18 ∨ a.off.toNat = 0x1C ∨
      0x80 ≤ a.off.toNat ∨ ((∃ off size v, a = .write off size v) ∧
        (a.off.toNat = 0x04 ∨ a.off.toNat = 0x08 ∨ a.off.toNat = 0x0C ∨ 0x40 ≤ a.off.toNat)) := by
  rw [target_eq_none_iff, wellFormed_eq_false_iff]
  by_cases hal : a.off.toNat % 4 = 0
  · cases hr : regAt a.off with
    | none => rcases (regAt_eq_none_iff hal).1 hr with h | h | h <;> simp [h]
    | some r =>
      have hmapped : ¬(a.off.toNat = 0x18 ∨ a.off.toNat = 0x1C ∨ 0x80 ≤ a.off.toNat) := by
        simp [← regAt_eq_none_iff hal, hr]
      simp only [not_or] at hmapped
      simp [hal, hmapped, writable_regAt_iff hr]
  · simp [hal]

end Sys2Proof

namespace Sys2Proof.Machine

theorem issueCommand_next (w : Word) (s : State) : ∃ t, issueCommand w s = .next t := by
  unfold issueCommand
  split
  · exact exec_next _ s
  · exact ⟨_, rfl⟩

theorem hostWrite_of_ne_cmd {r : Reg} (h : r ≠ .cmd) (v : Word) (s : State) :
    hostWrite r v s = .next (s.onBlock fun b => b.writeReg v r) := by
  cases r with
  | cmd => exact absurd rfl h
  | _ => rfl

theorem hostWrite_next (r : Reg) (v : Word) (s : State) : ∃ t, hostWrite r v s = .next t := by
  by_cases h : r = .cmd
  · exact h ▸ issueCommand_next v s
  · exact ⟨_, hostWrite_of_ne_cmd h v s⟩

theorem hostAccess_of_target_none {a : Access} (h : a.target = none) (s : State) :
    hostAccess a s = .refused .portFault := by simp [hostAccess, h]

/-- An access that reaches a register is answered. -/
theorem hostAccess_next {a : Access} {r : Reg} (h : a.target = some r) (s : State) : ∃ t, hostAccess a s = .next t := by
  cases a with
  | read off size => simp [hostAccess, h, hostRead]
  | write off size v => simpa [hostAccess, h] using hostWrite_next r v s

/-- Settles O40: an access is refused exactly when it reaches no register, and the offsets that reach none are read off
the register map row by row. -/
theorem portFaultExactly : Obligations.PortFaultExactly := by
  intro s a rest hs n bad
  have hbad : a.target = none ↔ bad := a.target_eq_none_iff_off
  rw [step_cons hs]
  refine ⟨fun h => hostAccess_of_target_none (hbad.2 h) _, fun h => ?_⟩
  obtain ⟨r, hr⟩ := Option.ne_none_iff_exists'.1 (mt hbad.1 h)
  exact hostAccess_next hr _

/-! ### Writes that are ignored, and reads -/

theorem step_wr {s : State} {r : Reg} {v : Word} {rest : List Input} (hr : r.writable = true)
    (hs : s.inputs = (Line.wr r v).input :: rest) : step s = hostWrite r v { s with inputs := rest } := by
  rw [step_cons hs, runInput_wr hr]

theorem step_rd {s : State} {r : Reg} {rest : List Input} (hs : s.inputs = (Line.rd r).input :: rest) :
    step s = .next { s with inputs := rest, rdata := some (s.blk.readReg s.pick r) } := by
  rw [step_cons hs, runInput_rd]; rfl

theorem command_of_not_accepting {s : State} (h : ¬s.blk.accepting) (f : Block → Block) : command f s = .next s := by
  simp [command, State.onBlock, issue_of_not_accepting h]

theorem issueCommand_of_not_accepting {s : State} (h : ¬s.blk.accepting) (w : Word) : issueCommand w s = .next s := by
  unfold issueCommand
  split
  · rename_i i hd
    exact (exec_command (isCommand_of_decode hd) s).trans (command_of_not_accepting h _)
  · exact command_of_not_accepting h _

/-- A host write while busy or halted is ignored, whatever register and word (R67, R68). -/
theorem hostWrite_of_not_accepting {s : State} (h : ¬s.blk.accepting) (r : Reg) (v : Word) :
    hostWrite r v s = .next s := by
  by_cases hr : r = .cmd
  · exact hr ▸ issueCommand_of_not_accepting h v
  · rw [hostWrite_of_ne_cmd hr, State.onBlock, writeReg_of_not_accepting h]

theorem rstatWord_busy (b : Block) : b.rstatWord.getLsbD 0 = b.ph.busy := by
  simp only [Block.rstatWord, BitVec.getLsbD_append]; simp

theorem rstatWord_fatal (b : Block) : b.rstatWord.getLsbD 1 = b.ph.fatal := by
  simp only [Block.rstatWord, BitVec.getLsbD_append]; simp

theorem rstatWord_busy_or_fatal_iff (b : Block) :
    b.rstatWord.getLsbD 0 = true ∨ b.rstatWord.getLsbD 1 = true ↔ ¬b.accepting := by
  rw [rstatWord_busy, rstatWord_fatal, ← ignoresWrites_eq_true_iff, Block.ignoresWrites, Bool.or_eq_true]

/-- Settles O44: `BUSY` or `FATAL` reads 1 exactly where no command is accepted, and there a host write is ignored. -/
theorem writesIgnoredWhileBusyOrHalted : Obligations.WritesIgnoredWhileBusyOrHalted := by
  intro s rest hbusy
  have hna : ¬s.blk.accepting := (rstatWord_busy_or_fatal_iff s.blk).1 hbusy
  refine ⟨fun r v hr hs => ?_, fun r hs => step_rd hs⟩
  rw [step_wr (Reg.writable_iff.2 hr) hs]
  exact hostWrite_of_not_accepting (s := { s with inputs := rest }) hna r v

/-! ### A stored write, read back -/

theorem get_set_same {x : Field} (h : x ≠ .dlc) (f : Frame) (v : Word) : (f.set x v).get x = v := by
  cases x with
  | dlc => exact absurd rfl h
  | _ => rfl

/-- A `DLC` keeps bits 3:0 and reads zero-extended (R70). -/
theorem get_set_dlc (f : Frame) (v : Word) : (f.set .dlc v).get .dlc = v &&& 0xF#32 := by
  apply BitVec.eq_of_toNat_eq
  have h : v.toNat &&& 15 = v.toNat % 16 := Nat.and_two_pow_sub_one_eq_mod v.toNat 4
  simp [Frame.set, Frame.get, h]
  omega

theorem get_set_of_ne {x y : Field} (h : y ≠ x) (f : Frame) (v : Word) : (f.set x v).get y = f.get y := by
  revert h
  cases x <;> cases y <;> simp [Frame.set, Frame.get]

@[simp] theorem storeReg_res (b : Block) (v : Word) (r : Reg) : (b.storeReg v r).res = b.res := by cases r <;> rfl
@[simp] theorem storeReg_ev (b : Block) (v : Word) (r : Reg) : (b.storeReg v r).ev = b.ev := by cases r <;> rfl
@[simp] theorem storeReg_snap (b : Block) (v : Word) (r : Reg) : (b.storeReg v r).snap = b.snap := by cases r <;> rfl
@[simp] theorem storeReg_tgt (b : Block) (v : Word) (r : Reg) : (b.storeReg v r).tgt = b.tgt := by cases r <;> rfl

/-- `STATUS` is a function of the slots and the age bits (R38). -/
theorem statusWord_congr {b c : Block} (hslot : ∀ i, c.slot i = b.slot i) (hage : c.age = b.age) (p : FreePick) :
    c.statusWord p = b.statusWord p := by
  have hmb : c.mb0 = b.mb0 ∧ c.mb1 = b.mb1 ∧ c.mb2 = b.mb2 := ⟨hslot .s0, hslot .s1, hslot .s2⟩
  have hout : c.outranks = b.outranks := by funext i j; simp only [Block.outranks, hslot, hage]
  have htme : c.tme = b.tme := by simp only [Block.tme, hslot]
  have hinflight : c.inflight = b.inflight := by simp only [Block.inflight, hslot]
  have hsel : c.sel = b.sel := by simp only [Block.sel, hinflight, hslot, hout]
  have hcode : c.code p = b.code p := by simp only [Block.code, Block.lowest, htme, hmb, hout]
  simp only [Block.statusWord, hslot, htme, hsel, hcode]

/-- `RSTAT` is a function of its stored fields and the phase (R39). -/
theorem rstatWord_congr {b c : Block} (hrs : c.rs = b.rs) (hph : c.ph = b.ph) : c.rstatWord = b.rstatWord := by
  simp only [Block.rstatWord, hrs, hph]

/-- A stored operand or frame field reads as the word written, but for a `DLC` (R69). -/
theorem readReg_storeReg_same {r : Reg} (hw : r.writable = true) (hc : r ≠ .cmd) (ha : r ≠ .fa .dlc)
    (hb : r ≠ .fb .dlc) (p : FreePick) (b : Block) (v : Word) : (b.storeReg v r).readReg p r = v := by
  cases r with
  | opa | opb => rfl
  | fa f => exact get_set_same (fun h => ha (h ▸ rfl)) _ v
  | fb f => exact get_set_same (fun h => hb (h ▸ rfl)) _ v
  | cmd => exact absurd rfl hc
  | rstat | res | status | ev | mb => cases hw

theorem readReg_storeReg_dlc {r : Reg} (h : r = .fa .dlc ∨ r = .fb .dlc) (p : FreePick) (b : Block) (v : Word) :
    (b.storeReg v r).readReg p r = v &&& 0xF#32 := by
  rcases h with rfl | rfl <;> exact get_set_dlc _ v

/-- A stored write changes what no other register reads. -/
theorem readReg_storeReg_of_ne {q r : Reg} (h : q ≠ r) (p : FreePick) (b : Block) (v : Word) :
    (b.storeReg v r).readReg p q = b.readReg p q := by
  cases q with
  | cmd => rfl
  | rstat => exact rstatWord_congr (storeReg_rs b v r) (storeReg_ph b v r)
  | status => exact statusWord_congr (slot_storeReg b v r) (storeReg_age b v r) p
  | res => exact storeReg_res b v r
  | ev f => exact congrArg (Frame.get · f) (storeReg_ev b v r)
  | mb i f => cases f <;> simp only [Block.readReg, slot_storeReg]
  | opa =>
    cases r with
    | opa => exact absurd rfl h
    | _ => rfl
  | opb =>
    cases r with
    | opb => exact absurd rfl h
    | _ => rfl
  | fa f =>
    cases r with
    | fa g => exact get_set_of_ne (fun e => h (congrArg Reg.fa e)) b.fa v
    | _ => rfl
  | fb f =>
    cases r with
    | fb g => exact get_set_of_ne (fun e => h (congrArg Reg.fb e)) b.fb v
    | _ => rfl

/-- Settles O43: the write stores, since the block accepts; the read that follows answers from the stored block, and what a
store does to each register's read is said by the lemmas on `readReg` and `storeReg`. -/
theorem writeThenReadBack : Obligations.WriteThenReadBack := by
  intro s r v rest hacc hr hs
  have hw : r.writable = true := Reg.writable_iff.2 (.inr hr)
  have hc : r ≠ .cmd := by rintro rfl; simp at hr
  have hstore : step s = .next { s with inputs := (Line.rd r).input :: rest, blk := s.blk.storeReg v r } := by
    rw [step_wr hw hs, hostWrite_of_ne_cmd hc, State.onBlock, writeReg_of_accepting hacc]
  refine ⟨_, _, hstore, step_rd rfl, ?_, ?_, ?_, ?_⟩
  · exact fun ha hb => congrArg some (readReg_storeReg_same hw hc ha hb _ _ v)
  · exact fun hd => congrArg some (readReg_storeReg_dlc hd _ _ v)
  · exact fun q hq => readReg_storeReg_of_ne hq _ _ v
  · simp

end Sys2Proof.Machine

/-! SUPPORT. Proofs about the command words (30_encoding.md R84 to R86): a word that decodes is the encoding of what it
decodes to, and a word that does not has one of the three causes of R86. -/

namespace Sys2Proof

/-! ### Words that decode -/

theorem plainOp_eq_ok_iff {i j : Instr} {f : BitVec 1} : plainOp i f = .ok j ↔ f = 0#1 ∧ j = i := by
  unfold plainOp; split <;> simp [*, eq_comm]

theorem plainOp_eq_error {i : Instr} {f : BitVec 1} {e : DecodeError} (h : plainOp i f = .error e) : f = 1#1 := by
  refine (busEvent_cases f).resolve_left fun hf => ?_
  simp [plainOp, hf] at h

theorem bit_ofBit (f : BitVec 1) : (FSel.ofBit f).bit = f := by
  rcases busEvent_cases f with rfl | rfl <;> rfl

theorem encode_of_plainOp {op k : BitVec 4} {f : BitVec 1} {i j : Instr} (hi : encode i = .cmd (commandWord k 0))
    (hk : op.toNat = k.toNat) (h : plainOp i f = .ok j) : encode j = .cmd (commandWord op f) := by
  obtain ⟨rfl, rfl⟩ := plainOp_eq_ok_iff.1 h
  rw [hi, BitVec.eq_of_toNat_eq hk]; rfl

/-- Each row of the table of R85 is the row the encoder writes. -/
theorem encode_of_decodeOp {op : BitVec 4} {f : BitVec 1} {i : Instr} (h : decodeOp op f = .ok i) :
    encode i = .cmd (commandWord op f) := by
  unfold decodeOp at h
  split at h
  case h_7 hop =>
    cases h
    rw [encode, bit_ofBit, BitVec.eq_of_toNat_eq (y := 0x6#4) hop]; rfl
  case h_8 hop =>
    cases h
    rw [encode, bit_ofBit, BitVec.eq_of_toNat_eq (y := 0x7#4) hop]; rfl
  case h_13 => cases h
  all_goals exact encode_of_plainOp rfl ‹op.toNat = _› h

/-- A word whose reserved bits are 0 is made of its two fields (R84). -/
theorem commandWord_fields {w : Word} (h : w.extractLsb' 5 27 = 0#27) :
    commandWord (w.extractLsb' 0 4) (w.extractLsb' 4 1) = w := by
  rw [commandWord, ← h, BitVec.extractLsb'_append_extractLsb'_eq_extractLsb' (show 5 = 4 + 1 from rfl),
    BitVec.extractLsb'_append_extractLsb'_eq_extractLsb' (show 4 = 0 + 4 from rfl)]
  exact BitVec.extractLsb'_eq_self

theorem encode_of_decode_cmd {w : Word} {i : Instr} (h : decode (.cmd w) = .ok i) : encode i = .cmd w := by
  simp only [decode, decodeCommand] at h
  split at h
  · cases h
  · rename_i hres
    rw [encode_of_decodeOp h, commandWord_fields (not_not.1 hres)]

/-- The 14 legal command words: the twelve operations of R85, two of them with either frame register. -/
def legalWords : List Word := [0x0, 0x1, 0x2, 0x3, 0x4, 0x5, 0x6, 0x16, 0x7, 0x17, 0x8, 0x9, 0xA, 0xB]

theorem mem_legalWords_of_encode {w : Word} {i : Instr} (h : encode i = .cmd w) : w ∈ legalWords := by
  cases i with
  | bstart | bdone => cases h
  | mkdata f | mkrmt f => cases f <;> (cases h; decide)
  | _ => cases h; decide

/-! ### Words that do not decode -/

/-- The three causes of R86: a reserved bit set, a reserved operation, a frame register select where none is read. -/
def illegalCause (w : Word) : Prop :=
  w.extractLsb' 5 27 ≠ 0 ∨ 0xC ≤ w.toNat % 16 ∨ (w.getLsbD 4 = true ∧ w.toNat % 16 ≠ 6 ∧ w.toNat % 16 ≠ 7)

theorem not_illegalCause_of_mem : ∀ w ∈ legalWords, ¬illegalCause w := by
  simp [legalWords, illegalCause]

theorem decodeOp_eq_error {op : BitVec 4} {f : BitVec 1} {e : DecodeError} (h : decodeOp op f = .error e) :
    0xC ≤ op.toNat ∨ (f = 1#1 ∧ op.toNat ≠ 6 ∧ op.toNat ≠ 7) := by
  unfold decodeOp at h
  split at h
  case h_7 | h_8 => cases h
  case h_13 => left; simp only [imp_false] at *; omega
  all_goals exact .inr ⟨plainOp_eq_error h, by omega, by omega⟩

theorem illegalCause_of_decode {w : Word} {e : DecodeError} (h : decode (.cmd w) = .error e) : illegalCause w := by
  simp only [decode, decodeCommand] at h
  split at h
  · exact .inl ‹_›
  · right
    have hop : (w.extractLsb' 0 4).toNat = w.toNat % 16 := by simp
    have hbit : w.extractLsb' 4 1 = 1#1 → w.getLsbD 4 = true := fun hf => by
      simpa using congrArg (BitVec.getLsbD · 0) hf
    rw [← hop]
    exact (decodeOp_eq_error h).imp_right (And.imp_left hbit)

end Sys2Proof

namespace Sys2Proof.Machine

theorem command_of_accepting {s : State} (h : s.blk.accepting) (f : Block → Block) :
    command f s = .next { s with blk := f s.blk.clearResults } := by
  simp [command, State.onBlock, issue_of_accepting h]

/-- The step that writes an illegal word to `CMD` of a block that accepts a command (R84, R86, R194). -/
theorem step_illegal {s : State} {w : Word} {e : DecodeError} {rest : List Input} (hd : decode (.cmd w) = .error e)
    (ha : s.blk.accepting) (hs : s.inputs = .host (.write 0 .word w) :: rest) :
    step s = .next { s with inputs := rest, blk := s.blk.clearResults.raiseFatal .illCmd } := by
  have hissue : step s = issueIllegal { s with inputs := rest } := by
    rw [step_wr (r := .cmd) rfl hs, hostWrite, issueCommand, hd]
  rw [hissue]
  exact command_of_accepting (s := { s with inputs := rest }) ha _

theorem rstatWord_illegal (b : Block) : (b.clearResults.raiseFatal .illCmd).rstatWord = 0x00710006 := by
  exact (rstatWord_congr (b := State.reset.blk.clearResults.raiseFatal .illCmd) rfl rfl).trans (by decide)

/-- Settles O4: a word that decodes is the encoding of an instruction, so it is one of the 14; a word that does not decode
has one of the three causes, which no legal word has, and is answered by the fatal error. -/
theorem everyCommandWordLegalOrFatal : Obligations.EveryCommandWordLegalOrFatal := by
  intro w
  cases hd : decode (.cmd w) with
  | ok i => exact .inl ⟨i, rfl, mem_legalWords_of_encode (encode_of_decode_cmd hd)⟩
  | error e =>
    have hcause : illegalCause w := illegalCause_of_decode hd
    refine .inr ⟨fun hmem => not_illegalCause_of_mem w hmem hcause, hcause, fun s rest ha hs => ?_⟩
    exact ⟨_, step_illegal hd ha hs, rstatWord_illegal s.blk, rfl⟩

end Sys2Proof.Machine

/-! SUPPORT. Proofs about the identifier words, the priority order and the identifier commands (40_identifier.md R111 to
R119). -/

namespace Sys2Proof.Machine

/-! ### The decoded fields as numbers -/

theorem toNat_getLsbD (w : Word) (k : Nat) : (w.getLsbD k).toNat = w.toNat / 2 ^ k % 2 := by
  rw [← BitVec.testBit_toNat, Nat.toNat_testBit]

theorem toNat_dec_ide (w : Word) : (dec w).ide.toNat = w.toNat / 4 % 2 := toNat_getLsbD w 2

theorem toNat_dec_rtr (w : Word) : (dec w).rtr.toNat = w.toNat / 2 % 2 := toNat_getLsbD w 1

theorem toNat_dec_base (w : Word) : (dec w).base.toNat = w.toNat / 2 ^ 21 := by
  have hw := w.isLt
  simp only [dec, BitVec.extractLsb'_toNat, Nat.shiftRight_eq_div_pow]
  omega

/-- The number of an identifier word: bits 31:3 of an extended word, bits 31:21 of a standard one (R111). -/
theorem toNat_dec_id (w : Word) :
    (dec w).id.toNat = if w.getLsbD 2 then w.toNat / 8 else w.toNat / 2 ^ 21 := by
  have hw := w.isLt
  simp only [dec]
  split <;> simp only [BitVec.toNat_setWidth, BitVec.extractLsb'_toNat, Nat.shiftRight_eq_div_pow] <;> omega

/-- The base is a part of the number, so kind, number and remote flag are all there is in a decoded identifier. -/
theorem dec_eq_iff {a b : Word} :
    dec a = dec b ↔ (dec a).ide = (dec b).ide ∧ (dec a).id = (dec b).id ∧ (dec a).rtr = (dec b).rtr := by
  refine ⟨fun h => by simp [h], fun ⟨hide, hid, hrtr⟩ => ?_⟩
  have hnum := congrArg BitVec.toNat hid
  have hbase : (dec a).base.toNat = (dec b).base.toNat := by
    cases ha : (dec a).ide
    · rw [← toNat_id_standard ha, ← toNat_id_standard (hide ▸ ha), hnum]
    · rw [toNat_base_extended ha, toNat_base_extended (hide ▸ ha), hnum]
  exact (LogicalId.mk.injEq ..).mpr ⟨hide, hrtr, hid, BitVec.eq_of_toNat_eq hbase⟩

/-! ### Canonical words -/

theorem canon_of_standard {w : Word} (h : w.getLsbD 2 = false) : canon w = w &&& 0xFFE00002#32 :=
  if_neg (by rw [h]; decide)

theorem canon_of_extended {w : Word} (h : w.getLsbD 2 = true) : canon w = w &&& 0xFFFFFFFE#32 := if_pos h

/-- A mask whose bits are all 1 in a field keeps the field. -/
theorem extractLsb'_and_of_ones {m : Word} {k n : Nat} (h : m.extractLsb' k n = BitVec.allOnes n) (w : Word) :
    (w &&& m).extractLsb' k n = w.extractLsb' k n := by
  rw [BitVec.extractLsb'_and, h, BitVec.and_allOnes]

/-- `dec` reads none of the bits that `canon` clears (R111). -/
theorem dec_canon (w : Word) : dec (canon w) = dec w := by
  cases h : w.getLsbD 2
  · have hbit : (canon w).getLsbD 2 = false := by rw [canon_of_standard h, BitVec.getLsbD_and, h]; rfl
    rw [dec, dec, hbit, h, canon_of_standard h, extractLsb'_and_of_ones (k := 21) (by decide)]
    simp
  · have hbit : (canon w).getLsbD 2 = true := by rw [canon_of_extended h, BitVec.getLsbD_and, h]; rfl
    rw [dec, dec, hbit, h, canon_of_extended h, extractLsb'_and_of_ones (k := 21) (by decide),
      extractLsb'_and_of_ones (k := 3) (by decide)]
    simp

/-- The bits that `dec` does not read are 0: bit 0, and bits 20:3 of a standard word. -/
def IgnoredBitsClear (w : Word) : Prop :=
  w.getLsbD 0 = false ∧ (w.getLsbD 2 = false → w.extractLsb' 3 18 = 0#18)

theorem ignoredBitsClear_canon (w : Word) : IgnoredBitsClear (canon w) := by
  refine ⟨getLsbD_canon_zero w, fun h => ?_⟩
  have hstd : w.getLsbD 2 = false := (congrArg LogicalId.ide (dec_canon w)).symm.trans h
  rw [canon_of_standard hstd, BitVec.extractLsb'_and]
  exact BitVec.and_zero

/-- A word whose ignored bits are 0 is its kind, number and remote flag put in their places. -/
theorem toNat_of_ignoredBitsClear {w : Word} (h : IgnoredBitsClear w) :
    w.toNat = (dec w).id.toNat * (if (dec w).ide then 8 else 2 ^ 21) + (dec w).ide.toNat * 4 +
      (dec w).rtr.toNat * 2 := by
  obtain ⟨hzero, hlow⟩ := h
  have hbit0 := toNat_getLsbD w 0
  rw [hzero, Bool.toNat_false] at hbit0
  have hbit2 := toNat_dec_ide w
  rw [toNat_dec_id, toNat_dec_rtr, show w.getLsbD 2 = (dec w).ide from rfl]
  cases hk : (dec w).ide <;> rw [hk] at hbit2
  · have hmid : w.toNat / 2 ^ 3 % 2 ^ 18 = 0 := by
      rw [← Nat.shiftRight_eq_div_pow, ← BitVec.extractLsb'_toNat, hlow hk, BitVec.toNat_ofNat, Nat.zero_mod]
    simp only [Bool.false_eq_true, if_false, Bool.toNat_false] at hbit2 ⊢
    omega
  · simp only [if_true, Bool.toNat_true] at hbit2 ⊢
    omega

theorem eq_of_dec_eq {a b : Word} (ha : IgnoredBitsClear a) (hb : IgnoredBitsClear b) (h : dec a = dec b) : a = b :=
  BitVec.eq_of_toNat_eq (by rw [toNat_of_ignoredBitsClear ha, toNat_of_ignoredBitsClear hb, h])

theorem isCanonical_of_ignoredBitsClear {w : Word} (h : IgnoredBitsClear w) : isCanonical w = true :=
  beq_iff_eq.2 (eq_of_dec_eq (ignoredBitsClear_canon w) h (dec_canon w))

theorem canon_of_isCanonical {w : Word} (h : isCanonical w = true) : canon w = w := beq_iff_eq.1 h

/-- Two words have one canonical form exactly when they decode to one identifier. -/
theorem canon_eq_canon_iff {a b : Word} : canon a = canon b ↔ dec a = dec b := by
  refine ⟨fun h => by rw [← dec_canon a, h, dec_canon], fun h => ?_⟩
  exact eq_of_dec_eq (ignoredBitsClear_canon a) (ignoredBitsClear_canon b) (by rw [dec_canon, dec_canon, h])

/-- Settles O6: the number and the base are the named bits, and none of them is cleared by `canon`. -/
theorem decReadsTheFields : Obligations.DecReadsTheFields := fun w =>
  ⟨(dec_canon w).symm, rfl, rfl, toNat_dec_base w, toNat_dec_id w⟩

/-! ### The priority order -/

theorem num3_eq_higher_iff {x y : Nat} : num3 x y = .higher ↔ x < y := by
  unfold num3
  split
  · simp [*]
  · split <;> simp [*]

theorem num3_eq_lower_iff {x y : Nat} : num3 x y = .lower ↔ y < x := by
  unfold num3
  split
  · simp; omega
  · split <;> simp [*]

theorem num3_eq_equal_iff {x y : Nat} : num3 x y = .equal ↔ x = y := by
  unfold num3
  split
  · simp; omega
  · split <;> simp <;> omega

theorem orElse_eq_higher_iff {c d : Prio} : c.orElse d = .higher ↔ c = .higher ∨ c = .equal ∧ d = .higher := by
  cases c <;> simp [Prio.orElse]

theorem orElse_eq_equal_iff {c d : Prio} : c.orElse d = .equal ↔ c = .equal ∧ d = .equal := by
  cases c <;> simp [Prio.orElse]

theorem prioCmp_eq_higher_iff_key (a b : Word) : prioCmp a b = .higher ↔ (key a).toNat < (key b).toNat := by
  rw [prioCmp_eq_num3_key, num3_eq_higher_iff]

theorem prioCmp_eq_lower_iff_key (a b : Word) : prioCmp a b = .lower ↔ (key b).toNat < (key a).toNat := by
  rw [prioCmp_eq_num3_key, num3_eq_lower_iff]

theorem prioCmp_eq_equal_iff_key (a b : Word) : prioCmp a b = .equal ↔ key a = key b := by
  rw [prioCmp_eq_num3_key, num3_eq_equal_iff, BitVec.toNat_inj]

/-- Settles O9: a comparison of two identifiers is the comparison of their keys as numbers. -/
theorem priorityIsKeyOrder : Obligations.PriorityIsKeyOrder := fun a b =>
  ⟨prioCmp_eq_higher_iff_key a b, prioCmp_eq_equal_iff_key a b, prioCmp_eq_lower_iff_key a b⟩

/-- Swapping the operands swaps `HIGHER` and `LOWER` (R118 (b)). -/
theorem prioCmp_eq_lower_iff_swap (a b : Word) : prioCmp a b = .lower ↔ prioCmp b a = .higher := by
  rw [prioCmp_eq_lower_iff_key, prioCmp_eq_higher_iff_key]

theorem prioCmp_same_kind {a b : Word} (h : (dec a).ide = (dec b).ide) :
    prioCmp a b = (num3 (dec a).id.toNat (dec b).id.toNat).orElse (num3 (dec a).rtr.toNat (dec b).rtr.toNat) := by
  unfold prioCmp
  rw [h]
  cases (dec b).ide <;> rfl

theorem prioCmp_standard_extended {a b : Word} (ha : (dec a).ide = false) (hb : (dec b).ide = true) :
    prioCmp a b = (num3 (dec a).id.toNat (dec b).base.toNat).orElse .higher := by
  unfold prioCmp
  rw [ha, hb]

theorem prioCmp_extended_standard {a b : Word} (ha : (dec a).ide = true) (hb : (dec b).ide = false) :
    prioCmp a b = (num3 (dec a).base.toNat (dec b).id.toNat).orElse .lower := by
  unfold prioCmp
  rw [ha, hb]

theorem bool_toNat_lt_iff : ∀ {x y : Bool}, x.toNat < y.toNat ↔ x = false ∧ y = true := by decide

theorem bool_toNat_eq_iff : ∀ {x y : Bool}, x.toNat = y.toNat ↔ x = y := by decide

/-- When `a` wins against `b`: by number and then as data against remote between words of one kind, by base between
words of two kinds, where a standard word wins the tie (R116). -/
def Wins (a b : Word) : Prop :=
  ((dec a).ide = (dec b).ide ∧ ((dec a).id.toNat < (dec b).id.toNat ∨
    (dec a).id.toNat = (dec b).id.toNat ∧ (dec a).rtr = false ∧ (dec b).rtr = true)) ∨
  ((dec a).ide = false ∧ (dec b).ide = true ∧ (dec a).id.toNat ≤ (dec b).base.toNat) ∨
  ((dec a).ide = true ∧ (dec b).ide = false ∧ (dec a).base.toNat < (dec b).id.toNat)

theorem prioCmp_eq_higher_iff (a b : Word) : prioCmp a b = .higher ↔ Wins a b := by
  unfold Wins
  cases ha : (dec a).ide <;> cases hb : (dec b).ide
  case false.true =>
    simp [prioCmp_standard_extended ha hb, orElse_eq_higher_iff, num3_eq_higher_iff, num3_eq_equal_iff, le_iff_lt_or_eq]
  case true.false =>
    simp [prioCmp_extended_standard ha hb, orElse_eq_higher_iff, num3_eq_higher_iff]
  all_goals
    simp [prioCmp_same_kind (ha.trans hb.symm), orElse_eq_higher_iff, num3_eq_higher_iff, num3_eq_equal_iff,
      bool_toNat_lt_iff]

theorem prioCmp_eq_equal_iff (a b : Word) : prioCmp a b = .equal ↔ dec a = dec b := by
  rw [dec_eq_iff]
  cases ha : (dec a).ide <;> cases hb : (dec b).ide
  case false.true => simp [prioCmp_standard_extended ha hb, orElse_eq_equal_iff]
  case true.false => simp [prioCmp_extended_standard ha hb, orElse_eq_equal_iff]
  all_goals
    simp [prioCmp_same_kind (ha.trans hb.symm), orElse_eq_equal_iff, num3_eq_equal_iff, BitVec.toNat_inj,
      bool_toNat_eq_iff]

/-- Settles O7: the numbers of the statement are the decoded ones, so `HIGHER` is `Wins` and `LOWER` is `Wins` swapped. -/
theorem priorityByNumbers : Obligations.PriorityByNumbers := by
  intro a b
  simp only [← toNat_dec_id]
  simp only [← toNat_dec_base]
  refine ⟨prioCmp_eq_higher_iff a b, (prioCmp_eq_lower_iff_swap a b).trans (prioCmp_eq_higher_iff b a), ?_⟩
  rw [prioCmp_eq_equal_iff, dec_eq_iff, ← BitVec.toNat_inj]
  rfl

theorem prioCmp_eq_equal_iff_canon (a b : Word) : prioCmp a b = .equal ↔ canon a = canon b :=
  (prioCmp_eq_equal_iff a b).trans canon_eq_canon_iff.symm

/-- Different canonical words have different keys, so for `HIGHER` the weak order of their keys is enough. -/
theorem prioCmp_eq_higher_of_ne {a b : Word} (ha : isCanonical a = true) (hb : isCanonical b = true) (hne : a ≠ b)
    (hkey : (key a).toNat ≤ (key b).toNat) : prioCmp a b = .higher := by
  rw [prioCmp_eq_higher_iff_key]
  refine lt_of_le_of_ne hkey fun heq => hne ?_
  have hcanon := (prioCmp_eq_equal_iff_canon a b).1 ((prioCmp_eq_equal_iff_key a b).2 (BitVec.eq_of_toNat_eq heq))
  rwa [canon_of_isCanonical ha, canon_of_isCanonical hb] at hcanon

/-- Settles O8: the clauses about several words are facts of the order of keys; `EQUAL` is equality of the decoded
identifiers; 0 and the greatest word have the least and the greatest key. -/
theorem priorityIsATotalOrder : Obligations.PriorityIsATotalOrder := by
  refine ⟨fun a b => ?total, fun a b => ?mirror, prioCmp_eq_equal_iff_canon, fun a b c hab hbc => ?trans,
    fun a b c hab => ?congr, fun a b ha hb hbase => ?standard, fun a b hide hid ha hb => ?data,
    fun w hw hne => ?highest, fun w hw hne => ?lowest⟩
  case total => cases prioCmp a b <;> simp
  case mirror =>
    exact ⟨(prioCmp_eq_lower_iff_swap b a).symm, by rw [prioCmp_eq_equal_iff_key, prioCmp_eq_equal_iff_key, eq_comm]⟩
  case trans =>
    rw [prioCmp_eq_higher_iff_key] at *
    exact hab.trans hbc
  case congr => rw [prioCmp_eq_num3_key, prioCmp_eq_num3_key, (prioCmp_eq_equal_iff_key a b).1 hab]
  case standard =>
    have hid : (dec a).id.toNat = (dec b).base.toNat := (toNat_id_standard ha).trans (congrArg BitVec.toNat hbase)
    exact (prioCmp_eq_higher_iff a b).2 (.inr (.inl ⟨ha, hb, hid.le⟩))
  case data => exact (prioCmp_eq_higher_iff a b).2 (.inl ⟨hide, .inr ⟨congrArg BitVec.toNat hid, ha, hb⟩⟩)
  case highest => exact prioCmp_eq_higher_of_ne (by decide) hw hne.symm (Nat.zero_le _)
  case lowest => exact prioCmp_eq_higher_of_ne hw (by decide) hne (Nat.le_of_lt_succ (key w).isLt)

/-! ### The remote flag -/

theorem withRemote_eq (w : Word) (r : Bool) :
    withRemote w r = (canon w &&& 0xFFFFFFFD#32) ||| (if r then 2#32 else 0#32) := by cases r <;> rfl

/-- Setting the remote flag changes no field that does not hold bit 1. -/
theorem extractLsb'_withRemote {k n : Nat} (hones : (0xFFFFFFFD#32).extractLsb' k n = BitVec.allOnes n)
    (hzero : (2#32).extractLsb' k n = 0#n) (w : Word) (r : Bool) :
    (withRemote w r).extractLsb' k n = (canon w).extractLsb' k n := by
  rw [withRemote_eq, BitVec.extractLsb'_or, extractLsb'_and_of_ones hones]
  cases r <;> simp [hzero]

theorem getLsbD_withRemote_one (w : Word) (r : Bool) : (withRemote w r).getLsbD 1 = r := by
  rw [withRemote_eq, BitVec.getLsbD_or, BitVec.getLsbD_and]
  cases r <;> simp

theorem getLsbD_withRemote_of_ne {k : Nat} (hones : (0xFFFFFFFD#32).getLsbD k = true)
    (hzero : (2#32).getLsbD k = false) (w : Word) (r : Bool) :
    (withRemote w r).getLsbD k = (canon w).getLsbD k := by
  rw [withRemote_eq, BitVec.getLsbD_or, BitVec.getLsbD_and, hones]
  cases r <;> simp [hzero]

/-- Kind, number and base are kept, the remote flag is as asked (R114). -/
theorem dec_withRemote (w : Word) (r : Bool) : dec (withRemote w r) = { dec w with rtr := r } := by
  rw [← dec_canon w]
  simp only [dec, getLsbD_withRemote_one, getLsbD_withRemote_of_ne (k := 2) (by decide) (by decide),
    extractLsb'_withRemote (k := 3) (n := 29) (by decide) (by decide),
    extractLsb'_withRemote (k := 21) (n := 11) (by decide) (by decide)]

theorem ignoredBitsClear_withRemote (w : Word) (r : Bool) : IgnoredBitsClear (withRemote w r) := by
  simp only [IgnoredBitsClear, getLsbD_withRemote_of_ne (k := 2) (by decide) (by decide),
    getLsbD_withRemote_of_ne (k := 0) (by decide) (by decide),
    extractLsb'_withRemote (k := 3) (n := 18) (by decide) (by decide)]
  exact ignoredBitsClear_canon w

theorem withRemote_of_rtr_eq {w : Word} {r : Bool} (h : (dec w).rtr = r) : withRemote w r = canon w :=
  eq_of_dec_eq (ignoredBitsClear_withRemote w r) (ignoredBitsClear_canon w) (by rw [dec_withRemote, dec_canon, ← h])

/-! ### The words built from a number -/

theorem toNat_standardId {n : Word} (h : n.toNat ≤ 0x7FF) : (standardId n).toNat = n.toNat * 2 ^ 21 := by
  rw [standardId, BitVec.toNat_shiftLeft, Nat.shiftLeft_eq]
  omega

theorem toNat_extendedId {n : Word} (h : n.toNat ≤ 0x1FFFFFFF) : (extendedId n).toNat = n.toNat * 8 + 4 := by
  rw [extendedId, BitVec.toNat_or, BitVec.toNat_shiftLeft, Nat.shiftLeft_eq,
    show (4#32).toNat = 4 from rfl, or_eq_add_of_dvd (n := 3) (by omega) (by omega)]
  omega

theorem getLsbD_standardId {k : Nat} (h : k < 21) (n : Word) : (standardId n).getLsbD k = false := by
  simp [standardId, BitVec.getLsbD_shiftLeft, h]

theorem getLsbD_extendedId {k : Nat} (h : k < 3) (n : Word) : (extendedId n).getLsbD k = (4#32).getLsbD k := by
  simp [extendedId, BitVec.getLsbD_or, BitVec.getLsbD_shiftLeft, h]

theorem isCanonical_standardId (n : Word) : isCanonical (standardId n) = true := by
  refine isCanonical_of_ignoredBitsClear ⟨getLsbD_standardId (by decide) n, fun _ => ?_⟩
  refine BitVec.eq_of_getLsbD_eq fun i hi => ?_
  rw [BitVec.getLsbD_extractLsb', getLsbD_standardId (by omega)]
  simp

theorem isCanonical_extendedId (n : Word) : isCanonical (extendedId n) = true := by
  refine isCanonical_of_ignoredBitsClear ⟨getLsbD_extendedId (by decide) n, fun hstd => ?_⟩
  rw [getLsbD_extendedId (by decide)] at hstd
  cases hstd

/-! ### The identifier commands -/

theorem exec_of_accepting {i : Instr} {s : State} (hi : i.isCommand = true) (h : s.blk.accepting) :
    exec i s = .next { s with blk := effectOf s.pick i s.blk.clearResults } :=
  (exec_command hi s).trans (command_of_accepting h _)

/-- In a state that accepts a command, `RSTAT` reads as its stored fields say, whatever the rest of the block. -/
theorem rstatWord_of_accepting {b : Block} (h : b.accepting) (rs : Rstat) :
    ({ b with rs := rs } : Block).rstatWord = ({ State.reset.blk with rs := rs } : Block).rstatWord :=
  rstatWord_congr rfl h

/-- A command that rejects leaves the two error fields and nothing else (R193). -/
theorem exec_of_reject {i : Instr} {s : State} {e : ErrorCode} (hi : i.isCommand = true) (h : s.blk.accepting)
    (he : effectOf s.pick i s.blk.clearResults = s.blk.clearResults.raiseReject e) :
    exec i s = .next { s with blk := { s.blk with rs := { Rstat.cleared with err := true, ecode := e } } } := by
  rw [exec_of_accepting hi h, he]
  rfl

/-- A command whose one effect is on `RES`. -/
theorem exec_of_result {i : Instr} {s : State} {r : Word} (hi : i.isCommand = true) (h : s.blk.accepting)
    (he : effectOf s.pick i s.blk.clearResults = { s.blk.clearResults with res := r }) :
    exec i s = .next { s with blk := { s.blk with rs := .cleared, res := r } } := by
  rw [exec_of_accepting hi h, he]
  rfl

theorem mkstdEffect_of_le {b : Block} (h : b.opa.toNat ≤ 0x7FF) : mkstdEffect b = { b with res := standardId b.opa } :=
  if_neg h.not_gt

theorem mkstdEffect_of_gt {b : Block} (h : 0x7FF < b.opa.toNat) : mkstdEffect b = b.raiseReject .rangeStd := if_pos h

theorem mkextEffect_of_le {b : Block} (h : b.opa.toNat ≤ 0x1FFFFFFF) :
    mkextEffect b = { b with res := extendedId b.opa } := if_neg h.not_gt

theorem mkextEffect_of_gt {b : Block} (h : 0x1FFFFFFF < b.opa.toNat) : mkextEffect b = b.raiseReject .rangeExt :=
  if_pos h

/-- Settles O11: in range the word is the shifted number, whose low 21 bits are 0; out of range the command rejects. -/
theorem mkstdResult : Obligations.MkstdResult := by
  refine ⟨by decide, fun s ha => ⟨fun hle => ?_, fun hgt => ?_⟩⟩
  · exact ⟨standardId s.blk.opa, exec_of_result rfl ha (mkstdEffect_of_le hle), rfl, toNat_standardId hle,
      isCanonical_standardId _, getLsbD_standardId (by decide) _, getLsbD_standardId (by decide) _⟩
  · exact ⟨_, exec_of_reject rfl ha (mkstdEffect_of_gt hgt), (rstatWord_of_accepting ha _).trans (by decide), rfl⟩

/-- Settles O12: in range the word is the shifted number over the low bits of `0x4`; out of range the command rejects. -/
theorem mkextResult : Obligations.MkextResult := by
  refine ⟨by decide, fun s ha => ⟨fun hle => ?_, fun hgt => ?_⟩⟩
  · exact ⟨extendedId s.blk.opa, exec_of_result rfl ha (mkextEffect_of_le hle), rfl, toNat_extendedId hle,
      isCanonical_extendedId _, getLsbD_extendedId (by decide) _, getLsbD_extendedId (by decide) _⟩
  · exact ⟨_, exec_of_reject rfl ha (mkextEffect_of_gt hgt), (rstatWord_of_accepting ha _).trans (by decide), rfl⟩

/-- Settles O13: the result is canonical and decodes to `OPA` with the flag replaced, which determines it. -/
theorem setrtrResult : Obligations.SetrtrResult := by
  refine ⟨by decide, fun s ha => ⟨withRemote s.blk.opa (s.blk.opb.getLsbD 0), exec_of_accepting rfl ha, ?_⟩⟩
  have hdec := dec_withRemote s.blk.opa (s.blk.opb.getLsbD 0)
  exact ⟨withRemote_eq _ _, isCanonical_of_ignoredBitsClear (ignoredBitsClear_withRemote _ _),
    by rw [hdec], by rw [hdec], by rw [hdec], withRemote_of_rtr_eq⟩

theorem toNat_dec_id_le (w : Word) : (dec w).id.toNat ≤ if w.getLsbD 2 then 0x1FFFFFFF else 0x7FF := by
  have hw := w.isLt
  rw [toNat_dec_id]
  split <;> omega

/-- Settles O14: `RES` is the decoded number, and the flags are the named bits. -/
theorem decidResult : Obligations.DecidResult :=
  ⟨by decide, fun s ha => ⟨(dec s.blk.opa).id, exec_of_accepting rfl ha, toNat_dec_id _, toNat_dec_id_le _⟩⟩

/-- Settles O16: `RSTAT` holds `ORD` alone, so it reads one of three words. -/
theorem cmpResult : Obligations.CmpResult := by
  refine ⟨by decide, fun s ha => ⟨_, exec_of_accepting rfl ha, rfl, fun h => ?_, fun h => ?_, fun h => ?_⟩⟩
  all_goals
    refine (rstatWord_of_accepting ha { Rstat.cleared with ord := prioCmp s.blk.opa s.blk.opb }).trans ?_
    rw [h]
    decide

end Sys2Proof.Machine

/-! SUPPORT. Proofs about the frames and the frame commands (41_frame.md R130 to R137). -/

namespace Sys2Proof.Machine

/-! ### Frames and their bytes -/

/-- A byte above the lowest one stands in what the lowest byte was appended to. -/
theorem extractLsb'_append_byte {n : Nat} (start : Nat) (above : BitVec n) (low : Byte) :
    (above ++ low).extractLsb' (8 + start) 8 = above.extractLsb' start 8 := by
  rw [BitVec.extractLsb'_append_eq_of_le (by omega), Nat.add_sub_cancel_left]

/-- The four bytes of a data register are read back where they were put (R83). -/
theorem extractLsb'_joinBytes (byteAt : Nat → Byte) {k : Nat} (hk : k < 4) :
    (joinBytes (byteAt 0) (byteAt 1) (byteAt 2) (byteAt 3)).extractLsb' (8 * k) 8 = byteAt k := by
  match k with
  | 0 => exact BitVec.extractLsb'_append_eq_right
  | 1 => exact (extractLsb'_append_byte 0 _ _).trans BitVec.extractLsb'_append_eq_right
  | 2 => exact (extractLsb'_append_byte 8 _ _).trans <|
      (extractLsb'_append_byte 0 _ _).trans BitVec.extractLsb'_append_eq_right
  | 3 => exact (extractLsb'_append_byte 16 _ _).trans <|
      (extractLsb'_append_byte 8 _ _).trans BitVec.extractLsb'_append_eq_left

theorem Frame.byte_of_lt {k : Nat} (h : k < 4) (f : Frame) : f.byte k = f.dl.extractLsb' (8 * k) 8 := if_pos h

theorem Frame.byte_of_ge {k : Nat} (h : 4 ≤ k) (f : Frame) : f.byte k = f.dh.extractLsb' (8 * (k - 4)) 8 :=
  if_neg h.not_gt

/-- Zero padding keeps the bytes below the length and clears the others (R132). -/
theorem Frame.byte_padded (f : Frame) (n : Nat) {k : Nat} (hk : k < 8) : (f.padded n).byte k = f.paddedByte n k := by
  rcases Nat.lt_or_ge k 4 with hlow | hhigh
  · rw [byte_of_lt hlow]
    exact extractLsb'_joinBytes (f.paddedByte n) hlow
  · rw [byte_of_ge hhigh]
    have hjoin := extractLsb'_joinBytes (fun j => f.paddedByte n (4 + j)) (k := k - 4) (by omega)
    rwa [Nat.add_sub_cancel' hhigh] at hjoin

theorem Frame.wellFormed_iff (f : Frame) :
    f.wellFormed = true ↔ f.dlc.toNat ≤ 8 ∧ isCanonical f.id = true ∧
      (f.isRemote = true ∨ ∀ k, k < 8 → k < f.dlc.toNat ∨ f.byte k = 0) := by
  simp only [Frame.wellFormed, Bool.and_eq_true, Bool.or_eq_true, decide_eq_true_eq, List.all_eq_true, List.mem_range,
    beq_iff_eq, and_assoc]
  rfl

theorem isCanonical_withRemote (w : Word) (r : Bool) : isCanonical (withRemote w r) = true :=
  isCanonical_of_ignoredBitsClear (ignoredBitsClear_withRemote w r)

theorem withRemote_false (w : Word) : withRemote w false = canon w &&& 0xFFFFFFFD#32 :=
  (withRemote_eq w false).trans BitVec.or_zero

/-- Clearing bits before setting them changes nothing. -/
theorem and_not_or_self (w m : Word) : (w &&& ~~~m) ||| m = w ||| m := by
  ext k hk
  simp only [BitVec.getElem_or, BitVec.getElem_and, BitVec.getElem_not]
  cases m[k] <;> simp

theorem withRemote_true (w : Word) : withRemote w true = canon w ||| 0x2#32 :=
  (withRemote_eq w true).trans (and_not_or_self (canon w) 0x2#32)

/-- A length in range fits the four bits of `DLC`. -/
theorem toNat_dlc_of_le {len : Word} (h : len.toNat ≤ 8) : (len.extractLsb' 0 4).toNat = len.toNat := by
  rw [BitVec.extractLsb'_toNat, Nat.shiftRight_zero]
  omega

/-! ### The frames that are constructed -/

section Constructed

variable {id len : Word} {f : Frame}

theorem isRemote_dataFrame : (dataFrame id len f).isRemote = false := getLsbD_withRemote_one id false

theorem isRemote_remoteFrame : (remoteFrame id len).isRemote = true := getLsbD_withRemote_one id true

theorem byte_dataFrame {k : Nat} (hk : k < 8) :
    (dataFrame id len f).byte k = if k < len.toNat then f.byte k else 0 := f.byte_padded len.toNat hk

/-- `MKDATA` makes a well-formed frame: the bytes from the length on are 0 (R131, R132). -/
theorem wellFormed_dataFrame (h : len.toNat ≤ 8) : (dataFrame id len f).wellFormed = true := by
  have hlen : (dataFrame id len f).dlc.toNat = len.toNat := toNat_dlc_of_le h
  refine (Frame.wellFormed_iff _).2 ⟨hlen.trans_le h, isCanonical_withRemote id false, .inr fun k hk => ?_⟩
  rw [hlen]
  exact (em (k < len.toNat)).imp_right fun hge => (byte_dataFrame hk).trans (if_neg hge)

/-- `MKRMT` makes a well-formed frame (R131, R133). -/
theorem wellFormed_remoteFrame (h : len.toNat ≤ 8) : (remoteFrame id len).wellFormed = true :=
  (Frame.wellFormed_iff _).2 ⟨(toNat_dlc_of_le h).trans_le h, isCanonical_withRemote id true, .inl isRemote_remoteFrame⟩

end Constructed

/-! ### The frame commands -/

section Effects

variable {x : FSel} {b : Block}

theorem mkdataEffect_of_le (h : b.opb.toNat ≤ 8) :
    mkdataEffect x b = b.setFrame x (dataFrame b.opa b.opb (b.frame x)) := if_neg h.not_gt

theorem mkdataEffect_of_gt (h : 8 < b.opb.toNat) : mkdataEffect x b = b.raiseFatal .lenData := if_pos h

theorem mkrmtEffect_of_le (h : b.opb.toNat ≤ 8) : mkrmtEffect x b = b.setFrame x (remoteFrame b.opa b.opb) :=
  if_neg h.not_gt

theorem mkrmtEffect_of_gt (h : 8 < b.opb.toNat) : mkrmtEffect x b = b.raiseReject .lenRmt := if_pos h

end Effects

section Accepted

variable {i : Instr} {s : State} (hi : i.isCommand = true) (ha : s.blk.accepting)
include hi ha

/-- A command whose one effect is on a frame register. -/
theorem exec_of_setFrame {x : FSel} {f : Frame}
    (he : effectOf s.pick i s.blk.clearResults = s.blk.clearResults.setFrame x f) :
    exec i s = .next { s with blk := ({ s.blk with rs := .cleared } : Block).setFrame x f } := by
  rw [exec_of_accepting hi ha, he]
  rfl

/-- A command that ends in a fatal error leaves the two error fields and the halt, and nothing else (R194). -/
theorem exec_of_fatal {e : ErrorCode}
    (he : effectOf s.pick i s.blk.clearResults = s.blk.clearResults.raiseFatal e) :
    exec i s = .next { s with blk := { s.blk with
      rs := { Rstat.cleared with err := true, ecode := e }, ph := .halt } } := by
  rw [exec_of_accepting hi ha, he]
  rfl

end Accepted

/-- A halted block's `RSTAT` reads as its stored fields say, whatever the rest of the block. -/
theorem rstatWord_halted (b : Block) (rs : Rstat) :
    ({ b with rs := rs, ph := .halt } : Block).rstatWord =
      ({ State.reset.blk with rs := rs, ph := .halt } : Block).rstatWord := rstatWord_congr rfl rfl

/-- `RSTAT` with no result field but `ORD` set (R39). -/
theorem rstatWord_ord {b : Block} (h : b.accepting) (o : Prio) :
    ({ b with rs := { Rstat.cleared with ord := o } } : Block).rstatWord = o.code.setWidth 32 <<< 5 := by
  rw [rstatWord_of_accepting h]
  cases o <;> decide

/-- `RSTAT` with no result field but `EQ` set or clear (R39). -/
theorem rstatWord_eq {b : Block} (h : b.accepting) (q : Bool) :
    ({ b with rs := { Rstat.cleared with eq := q } } : Block).rstatWord = if q then 0x00000080 else 0x00000000 := by
  rw [rstatWord_of_accepting h]
  cases q <;> decide

/-- Settles O17: in range the constructed data frame is well-formed; a longer length is fatal. -/
theorem mkdataResult : Obligations.MkdataResult := by
  refine ⟨by decide, by decide, fun s x ha => ⟨fun hle => ?_, fun hgt => ?_⟩⟩
  · have heffect := mkdataEffect_of_le (x := x) (b := s.blk.clearResults) hle
    rw [frame_clearResults] at heffect
    exact ⟨dataFrame s.blk.opa s.blk.opb (s.blk.frame x), exec_of_setFrame rfl ha heffect, withRemote_false _,
      toNat_dlc_of_le hle, fun k hk => byte_dataFrame hk, isRemote_dataFrame, wellFormed_dataFrame hle⟩
  · exact ⟨_, exec_of_fatal rfl ha (mkdataEffect_of_gt hgt), (rstatWord_halted _ _).trans (by decide), rfl⟩

/-- Settles O18: in range the constructed remote frame is well-formed; a longer length is rejected. -/
theorem mkrmtResult : Obligations.MkrmtResult := by
  refine ⟨by decide, by decide, fun s x ha => ⟨fun hle => ?_, fun hgt => ?_⟩⟩
  · exact ⟨remoteFrame s.blk.opa s.blk.opb, exec_of_setFrame rfl ha (mkrmtEffect_of_le hle), withRemote_true _,
      toNat_dlc_of_le hle, rfl, rfl, isRemote_remoteFrame, wellFormed_remoteFrame hle⟩
  · exact ⟨_, exec_of_reject rfl ha (mkrmtEffect_of_gt hgt), (rstatWord_of_accepting ha _).trans (by decide), rfl⟩

/-- Settles O19: the three tests of `feq` are the three clauses; a frame that is not a data frame passes the last. -/
theorem frameEqualityMeaning : Obligations.FrameEqualityMeaning := by
  intro a b
  have hbytes : (a.isRemote || (List.range a.len).all fun k => a.byte k == b.byte k) = true ↔
      (a.id.getLsbD 1 = false → ∀ k, k < min a.dlc.toNat 8 → a.byte k = b.byte k) := by
    simp only [Bool.or_eq_true, List.all_eq_true, List.mem_range, beq_iff_eq]
    rw [← Bool.not_eq_false, ← imp_iff_not_or]
    rfl
  rw [feq, Bool.and_eq_true, Bool.and_eq_true, beq_iff_eq, beq_iff_eq, hbytes, and_assoc]

/-- Settles O21: `RSTAT` holds `EQ` alone. -/
theorem feqResult : Obligations.FeqResult :=
  ⟨by decide, fun _ ha => ⟨_, exec_of_accepting rfl ha, rfl, rstatWord_eq ha _⟩⟩

/-- Settles O22: `RSTAT` holds `ORD` alone, so it reads one of three words. -/
theorem fcmpResult : Obligations.FcmpResult := by
  refine ⟨by decide, fun s ha => ⟨_, exec_of_accepting rfl ha, rfl, ?_⟩⟩
  have hword := rstatWord_ord ha (prioCmp s.blk.fa.id s.blk.fb.id)
  refine ⟨fun h => ?_, fun h => ?_, fun h => ?_⟩ <;> exact hword.trans (by rw [h]; decide)

end Sys2Proof.Machine

/-! SUPPORT. Proofs about the mailbox commands, the steps of the other agents and the slot life cycle (42_mailbox.md R151
to R172). -/

namespace Sys2Proof.Machine

/-! ### NOP and IDLE -/

/-- Settles O10: an accepted command clears the result fields, and `NOP` does nothing more; any other is ignored. -/
theorem nopClearsResults : Obligations.NopClearsResults := fun _ =>
  ⟨fun ha => ⟨exec_of_accepting rfl ha, (rstatWord_of_accepting ha _).trans (by decide)⟩,
    fun hna => command_of_not_accepting hna nopEffect⟩

theorem tme_eq_ones_iff (b : Block) : b.tme = 0b111#3 ↔ ∀ i, (b.slot i).st = .empty := by
  rw [slot_forall]
  simp only [Block.tme, vec3, slot_s0, slot_s1, slot_s2, Mailbox.isEmpty]
  cases b.mb0.st <;> cases b.mb1.st <;> cases b.mb2.st <;> decide

/-- `RSTAT` with no result field but `IDLEF` set or clear (R39). -/
theorem rstatWord_idlef {b : Block} (h : b.accepting) (q : Bool) :
    ({ b with rs := { Rstat.cleared with idlef := q } } : Block).rstatWord = if q then 0x00000100 else 0x00000000 := by
  rw [rstatWord_of_accepting h]
  cases q <;> decide

/-- Settles O25: `IDLEF` is the test that all three bits of `TME` are set, and `RSTAT` holds it alone. -/
theorem idleResult : Obligations.IdleResult :=
  ⟨by decide, fun s ha => ⟨_, exec_of_accepting rfl ha, rfl, beq_iff_eq.trans (tme_eq_ones_iff s.blk),
    rstatWord_idlef ha _⟩⟩

/-! ### TX, first phase -/

/-- Where `TX` goes from its snapshot: past the checks when a slot is empty (R151). -/
def Block.txPhase (b : Block) : Phase := if b.tme ≠ 0#3 then .write else .chk0

theorem txPhase_of_empty {b : Block} (h : ∃ i, (b.slot i).st = .empty) : b.txPhase = .write :=
  if_pos ((tme_ne_zero_iff b).2 h)

theorem txPhase_of_full {b : Block} (h : ∀ i, (b.slot i).st ≠ .empty) : b.txPhase = .chk0 :=
  if_neg fun hne => not_exists.2 h ((tme_ne_zero_iff b).1 hne)

theorem txEffect_of_le {b : Block} (h : b.fa.dlc.toNat ≤ 8) (p : FreePick) :
    txEffect p b = { b with snap := b.tme, tgt := b.code p, ph := b.txPhase } := if_neg h.not_gt

theorem txEffect_of_gt {b : Block} (h : 8 < b.fa.dlc.toNat) (p : FreePick) : txEffect p b = b.raiseFatal .lenData :=
  if_pos h

/-- The first phase of a `TX` that passes the length check (R151). -/
theorem exec_tx_of_le {s : State} (ha : s.blk.accepting) (hle : s.blk.fa.dlc.toNat ≤ 8) :
    exec .tx s = .next { s with blk := { s.blk with
      rs := .cleared, snap := s.blk.tme, tgt := s.blk.code s.pick, ph := s.blk.txPhase } } := by
  rw [exec_of_accepting rfl ha, effectOf, txEffect_of_le (b := s.blk.clearResults) hle]
  rfl

/-- Settles O24: `TME` decides the phase, and `CODE` names an empty slot if there is one; a longer length is fatal. -/
theorem txFirstPhase : Obligations.TxFirstPhase := by
  refine ⟨by decide, fun s ha => ⟨fun hle => ?_, fun hgt => ?_⟩⟩
  · exact ⟨_, exec_tx_of_le ha hle, rfl, fun hempty => ⟨txPhase_of_empty hempty, code_of_empty s.pick hempty⟩,
      txPhase_of_full⟩
  · exact ⟨_, exec_of_fatal rfl ha (txEffect_of_gt (b := s.blk.clearResults) hgt s.pick),
      (rstatWord_halted _ _).trans (by decide), rfl⟩

/-! ### The bus events and ARES -/

theorem bstart_of_sel {b : Block} {i : Slot} (h : b.sel = some i) :
    b.bstart = b.setSlot i { b.slot i with st := .inflight } := by rw [Block.bstart, h]

theorem bstart_of_sel_none {b : Block} (h : b.sel = none) : b.bstart = b := by rw [Block.bstart, h]

theorem bdone_of_inflight {b : Block} {i : Slot} (h : b.inflight = some i) :
    b.bdone = b.setSlot i ((b.slot i).emptied true) := by rw [Block.bdone, h]

theorem bdone_of_inflight_none {b : Block} (h : b.inflight = none) : b.bdone = b := by rw [Block.bdone, h]

/-- The one slot in flight is the one found (R43 (a)). -/
theorem inflight_eq_some {b : Block} {i : Slot} (hi : (b.slot i).st = .inflight)
    (hone : ∀ j, (b.slot j).st = .inflight → j = i) : b.inflight = some i := by
  cases hf : b.inflight with
  | none => exact absurd hi ((inflight_eq_none_iff b).1 hf i)
  | some j => rw [hone j (st_of_inflight hf)]

/-- Settles O26: what `BSTART` does is decided by `SEL`, which names only an eligible slot, with none in flight. -/
theorem bstartResult : Obligations.BstartResult := by
  refine ⟨by decide, fun s => ⟨fun i hi => ?_, fun hnone => ?_⟩⟩
  · exact ⟨_, rfl, congrArg (fun c => { s with blk := c }) (bstart_of_sel hi), st_of_sel hi⟩
  · rw [exec_bstart, State.onBlock, bstart_of_sel_none hnone]

/-- Settles O27: what `BDONE` does is decided by the slot in flight. -/
theorem bdoneResult : Obligations.BdoneResult := by
  refine ⟨by decide, fun s => ⟨fun i hi hone => ?_, fun hnone => ?_⟩⟩
  · rw [exec_bdone, State.onBlock, bdone_of_inflight (inflight_eq_some hi hone)]
    rfl
  · rw [exec_bdone, State.onBlock, bdone_of_inflight_none ((inflight_eq_none_iff _).2 hnone)]

theorem aresEnabled_iff (b : Block) (i : Slot) :
    b.aresEnabled i = true ↔ (b.slot i).st = .pending ∧ (b.slot i).abrq = true := by
  rw [Block.aresEnabled, Bool.and_eq_true, beq_iff_eq]

/-- Settles O28: the step is enabled, and empties the slot as not sent. -/
theorem aresResult : Obligations.AresResult := fun _ i _ hs hst habrq =>
  (step_cons hs).trans (if_pos ((aresEnabled_iff _ i).2 ⟨hst, habrq⟩))

/-! ### The phases of the sequencer -/

theorem step_seq {s : State} {rest : List Input} {c : Block} (hs : s.inputs = .seq :: rest)
    (hc : s.blk.seqStep = some c) : step s = .next { s with inputs := rest, blk := c } := by
  rw [step_cons hs, runInput, seqAgent, hc]
  rfl

/-- The check phases, each with the slot it checks and the phase that follows (R152 to R154). -/
theorem seqStep_of_check {b : Block} {i : Slot} {nextPhase : Phase}
    (h : (b.ph = .chk0 ∧ i = .s0 ∧ nextPhase = .chk1) ∨ (b.ph = .chk1 ∧ i = .s1 ∧ nextPhase = .chk2) ∨
      (b.ph = .chk2 ∧ i = .s2 ∧ nextPhase = .abort)) : b.seqStep = some (checkSlot i nextPhase b) := by
  rcases h with ⟨hp, rfl, rfl⟩ | ⟨hp, rfl, rfl⟩ | ⟨hp, rfl, rfl⟩ <;> simp only [Block.seqStep, hp]

/-- The slot stops the new frame: it is non-empty and not strictly outranked (R152 to R154). -/
theorem checkSlot_test_iff (b : Block) (i : Slot) :
    ((b.slot i).txrq && prioCmp b.fa.id (b.slot i).content.idWord != .higher) = true ↔
      (b.slot i).st ≠ .empty ∧ prioCmp b.fa.id (b.slot i).content.idWord ≠ .higher := by
  simp [Mailbox.txrq]

/-- Settles O29: the phase's one test, read live, is that its slot is non-empty and not strictly outranked. -/
theorem checkPhases : Obligations.CheckPhases := by
  intro s rest i nextPhase hs hphase
  rw [step_seq hs (seqStep_of_check hphase), checkSlot]
  refine ⟨fun hstop => ?_, fun hpass => ?_⟩
  · rw [if_pos ((checkSlot_test_iff s.blk i).2 hstop)]
  · rw [if_neg (mt (checkSlot_test_iff s.blk i).1 fun ⟨hne, hnot⟩ => hpass.elim hne hnot)]

theorem abortTarget_of_empty {b : Block} (h : (b.slot b.tgt).st = .empty) : abortTarget b = { b with ph := .wait } := by
  simp [abortTarget, Mailbox.isEmpty, h]

theorem abortTarget_of_not_empty {b : Block} (h : (b.slot b.tgt).st ≠ .empty) :
    abortTarget b = { b.setSlot b.tgt { b.slot b.tgt with abrq := true } with ph := .wait } := by
  simp [abortTarget, Mailbox.isEmpty, h]

/-- Settles O30: whether the target is empty decides what the phase asks for. -/
theorem abortPhase : Obligations.AbortPhase := by
  intro s rest hs hp
  rw [step_seq hs (seqStep_of_abort hp)]
  exact ⟨fun hne => by rw [abortTarget_of_not_empty hne], fun he => by rw [abortTarget_of_empty he]⟩

theorem seqStep_of_resolved {b : Block} (hp : b.ph = .wait) (h : (b.slot b.tgt).abrq = false) :
    b.seqStep = some (readBack b) := by simp [Block.seqStep, hp, h]

theorem readBack_of_sent {b : Block} (h : (b.slot b.tgt).txok = true) : readBack b = { b with ph := .write } := if_pos h

theorem readBack_of_aborted {b : Block} (h : (b.slot b.tgt).txok = false) :
    readBack b = { b with
      ev := (b.slot b.tgt).content.frame, rs := { b.rs with evicted := true }, ph := .write } := by
  simp [readBack, h]

/-- The step that reads an aborted frame back (R156). -/
theorem step_readBack {s : State} {rest : List Input} (hs : s.inputs = .seq :: rest) (hp : s.blk.ph = .wait)
    (habrq : (s.blk.slot s.blk.tgt).abrq = false) (htxok : (s.blk.slot s.blk.tgt).txok = false) :
    step s = .next { s with inputs := rest, blk := { s.blk with
      ev := (s.blk.slot s.blk.tgt).content.frame, rs := { s.blk.rs with evicted := true }, ph := .write } } := by
  rw [step_seq hs (seqStep_of_resolved hp habrq), readBack_of_aborted htxok]

theorem getLsbD_idWord_zero (c : Content) : c.idWord.getLsbD 0 = false := by
  rw [Content.idWord, BitVec.getLsbD_append]
  rfl

theorem extractLsb'_idWord (c : Content) : c.idWord.extractLsb' 1 31 = c.id := BitVec.extractLsb'_append_eq_left

/-- Settles O31: the frame read back is the one in the target's content registers. -/
theorem waitPhase : Obligations.WaitPhase := by
  intro s rest hs hp
  refine ⟨fun hheld => step_seq hs (seqStep_of_held hp hheld), fun habrq htxok => ?_, fun habrq htxok => ?_⟩
  · exact ⟨_, step_readBack hs hp habrq htxok, getLsbD_idWord_zero _, extractLsb'_idWord _, rfl, rfl, rfl⟩
  · rw [step_seq hs (seqStep_of_resolved hp habrq), readBack_of_sent htxok]

theorem seqStep_of_write {b : Block} (h : b.ph = .write) : b.seqStep = some (writeTarget b) := by
  simp only [Block.seqStep, h]

theorem slot_writeTarget_tgt (b : Block) : (writeTarget b).slot b.tgt = .loaded b.fa := by
  rw [slot_writeTarget, if_pos rfl]

/-- What `WRITE` leaves of the block (R157). -/
theorem writeTarget_frame (b : Block) :
    writeTarget b = { b with
      mb0 := (writeTarget b).mb0, mb1 := (writeTarget b).mb1, mb2 := (writeTarget b).mb2, age := (writeTarget b).age,
      rs := { b.rs with mbx := b.tgt }, ph := .idle } := by simp [writeTarget]

theorem writeTarget_age (b : Block) : (writeTarget b).age = b.age.youngest b.tgt := rfl

/-- Settles O32: the slots after the load are `slot_writeTarget`, their order is `older_youngest`. -/
theorem writePhase : Obligations.WritePhase := by
  intro s rest hs hp
  refine ⟨_, step_seq hs (seqStep_of_write hp), ?_⟩
  dsimp only
  rw [slot_writeTarget_tgt, writeTarget_age]
  refine ⟨rfl, idWord_content s.blk.fa, rfl, rfl, rfl, fun j hj => ⟨?_, ?_⟩, fun j k hj hk => ?_, ?_⟩
  · rw [slot_writeTarget, if_neg hj]
  · simp [older_youngest, hj]
  · rw [older_youngest, if_neg hk, if_neg hj]
    split
    · rename_i hjk
      rw [hjk, older_self]
    · rfl
  · exact congrArg (fun c => { s with inputs := rest, blk := c }) (writeTarget_frame s.blk)

/-! ### The slot life cycle -/

/-- An abort is pending only in `WAIT` (R43 (f)). -/
theorem abrq_of_not_waiting {b : Block} (h : b.SlotsSound) (hp : b.ph ≠ .wait) (i : Slot) : (b.slot i).abrq = false :=
  Bool.eq_false_iff.2 fun habrq => hp (h.abortOnlyOfTarget i habrq).1

/-- The bookkeeping after an abort request: a slot that holds a frame has both completion flags 0 (R43 (c)). -/
theorem flags_abortRequested {m : Mailbox} (h : m.rqcp = false ∧ m.txok = false) :
    ({ m with abrq := true } : Mailbox).flags = (m.st, true, false, false) := by simp [Mailbox.flags, h]

/-- The bookkeeping after the start of a slot. -/
theorem flags_started {m : Mailbox} (habrq : m.abrq = false) (h : m.rqcp = false ∧ m.txok = false) :
    ({ m with st := .inflight } : Mailbox).flags = (.inflight, false, false, false) := by simp [Mailbox.flags, habrq, h]

/-- Settles O54: the moves of one slot are the rows of the table; the invariant gives the flags before each. -/
theorem slotsMoveOnlyByTheTable : Obligations.SlotsMoveOnlyByTheTable := by
  intro s t x rest i hinv hs hx hstep
  rcases move_slot (step_move_cons hs hstep) hx i with
    e | ⟨rfl, hp, ht, hst, e⟩ | ⟨rfl, hp, ht, e⟩ | ⟨rfl, hst, habrq, e⟩ | ⟨rfl, hsel, e⟩ | ⟨rfl, hst, e⟩
  · exact .inl (by rw [e])
  · have habrq := abrq_of_not_waiting hinv.slots (by simp [hp]) i
    have hopen := hinv.slots.heldIsOpen i hst
    right
    rw [e, flags_abortRequested hopen]
    cases h : (s.blk.slot i).st with
    | empty => exact absurd h hst
    | pending => exact .abortPending ⟨hp, ht.symm⟩ ⟨h, habrq⟩
    | inflight => exact .abortInFlight ⟨hp, ht.symm⟩ ⟨h, habrq⟩
  · subst ht
    have habrq := abrq_of_not_waiting hinv.slots (by simp [hp]) s.blk.tgt
    exact .inr (by rw [e]; exact .load ⟨hp, rfl⟩ ⟨hinv.tx.writeIntoEmpty hp, habrq⟩)
  · exact .inr (by rw [e]; exact .aborted ⟨hst, habrq⟩)
  · obtain ⟨hst, habrq, -⟩ := st_of_sel hsel
    have hopen := hinv.slots.heldIsOpen i (by simp [hst])
    right
    rw [e, flags_started habrq hopen]
    exact .start hsel ⟨hst, habrq⟩
  · exact .inr (by rw [e]; exact .sent hst)

/-- A slot's content changes only by the load in phase `WRITE` (R157, R169). -/
theorem content_of_move {p : FreePick} {x : Input} {b c : Block} (m : Move p x b c) (hx : ∀ v, x ≠ .rst v)
    (i : Slot) : (c.slot i).content = (b.slot i).content ∨ x = .seq ∧ b.ph = .write ∧ b.tgt = i := by
  rcases move_slot m hx i with
    e | ⟨-, -, -, -, e⟩ | ⟨hseq, hp, ht, -⟩ | ⟨-, -, -, e⟩ | ⟨-, -, e⟩ | ⟨-, -, e⟩
  case inr.inr.inl => exact .inr ⟨hseq, hp, ht.symm⟩
  all_goals exact .inl (by simp [e])

/-- Settles O55: only `WRITE` loads a slot, and the invariant says that its target is then empty. -/
theorem nonEmptySlotNeverOverwritten : Obligations.NonEmptySlotNeverOverwritten :=
  fun _ _ _ _ i hinv hs hx hstep =>
    ⟨fun hne => (content_of_move (step_move_cons hs hstep) hx i).resolve_left hne,
      fun _ hp => hinv.tx.writeIntoEmpty hp⟩

/-! ### The evicted frame -/

theorem content_of_step {i : Slot} {s t : State} (hk : s.keepsContent i) (h : step s = .next t) :
    (t.blk.slot i).content = (s.blk.slot i).content := by
  obtain ⟨hnoreset, hnoload⟩ := hk
  rcases step_move h with ⟨-, rfl⟩ | ⟨x, rest, hs, m⟩
  · rfl
  · refine (content_of_move m (fun v hv => hnoreset v rest (hv ▸ hs)) i).resolve_right ?_
    rintro ⟨rfl, hload⟩
    exact hnoload ⟨by rw [hs]; rfl, hload⟩

theorem content_of_run {i : Slot} {s t : State} (h : RunWhile (State.keepsContent i) s t) :
    (t.blk.slot i).content = (s.blk.slot i).content := by
  induction h with
  | refl => rfl
  | cons hk hstep _ ih => exact ih.trans (content_of_step hk hstep)

/-- A frame that went through a slot comes back with its identifier through `canon` (R157, R172). -/
theorem frame_content (f : Frame) : f.content.frame = { f with id := canon f.id } := by
  rw [Content.frame, idWord_content]
  rfl

theorem feq_canon_id (f : Frame) : feq { f with id := canon f.id } f = true :=
  (frameEqualityMeaning _ _).2 ⟨canon_canon f.id, rfl, fun _ _ _ => rfl⟩

/-- Settles O57: the load puts `FA` into the slot's content registers, the run keeps them, the read-back returns them. -/
theorem evictedFrameReturnedUnchanged : Obligations.EvictedFrameReturnedUnchanged := by
  rintro s0 s1 s2 s3 r0 r2 i hs0 hwrite rfl hload hrun hs2 hwait htgt habrq htxok hread
  rw [step_seq hs0 (seqStep_of_write hwrite)] at hload
  cases hload
  rw [← htgt] at habrq htxok hrun
  rw [step_readBack hs2 hwait habrq htxok] at hread
  cases hread
  have hcontent : (s2.blk.slot s2.blk.tgt).content = s0.blk.fa.content := by
    rw [content_of_run hrun, htgt, slot_writeTarget_tgt]
    rfl
  dsimp only
  rw [hcontent, frame_content]
  refine ⟨rfl, rfl, feq_canon_id s0.blk.fa, fun hcanon => ?_⟩
  rw [canon_of_isCanonical hcanon]

end Sys2Proof.Machine

/-! SUPPORT. Proofs about the errors (60_exceptions.md R191 to R200): which commands raise one, the whole effect of a
`Reject` and of a `Fatal`, and that no other step halts the block. -/

namespace Sys2Proof.Machine

/-! ### The errors a command can raise -/

/-- The commands that end in a `Reject`, with their error codes (R193). -/
inductive RejectCause (b : Block) : Instr → ErrorCode → Prop
  | standardRange (h : 0x7FF < b.opa.toNat) : RejectCause b .mkstd .rangeStd
  | extendedRange (h : 0x1FFFFFFF < b.opa.toNat) : RejectCause b .mkext .rangeExt
  | remoteLength {x : FSel} (h : 8 < b.opb.toNat) : RejectCause b (.mkrmt x) .lenRmt

/-- The legal commands that end in a `Fatal`, with their error codes (R194). -/
inductive FatalCause (b : Block) : Instr → ErrorCode → Prop
  | dataLength {x : FSel} (h : 8 < b.opb.toNat) : FatalCause b (.mkdata x) .lenData
  | txLength (h : 8 < b.fa.dlc.toNat) : FatalCause b .tx .lenData

section Effects

variable {p : FreePick} {b : Block} {i : Instr} {e : ErrorCode}

theorem effectOf_of_rejectCause (h : RejectCause b i e) :
    effectOf p i b.clearResults = b.clearResults.raiseReject e := by
  cases h with
  | standardRange h => exact mkstdEffect_of_gt h
  | extendedRange h => exact mkextEffect_of_gt h
  | remoteLength h => exact mkrmtEffect_of_gt h

theorem effectOf_of_fatalCause (h : FatalCause b i e) :
    effectOf p i b.clearResults = b.clearResults.raiseFatal e := by
  cases h with
  | dataLength h => exact mkdataEffect_of_gt h
  | txLength h => exact txEffect_of_gt (b := b.clearResults) h p

end Effects

/-- `ERR` is clear in the second block, which is halted only if the first is. -/
def NoError (b c : Block) : Prop := c.rs.err = false ∧ (c.ph = .halt → b.ph = .halt)

theorem noError_of_eq {b c : Block} (hrs : c.rs.err = false) (hph : c.ph = b.ph) : NoError b c :=
  ⟨hrs, fun h => hph ▸ h⟩

theorem txPhase_ne_halt (b : Block) : b.txPhase ≠ .halt := by unfold Block.txPhase; split <;> simp

/-- An accepted command raises no error, or has the one cause of its `Reject` or of its `Fatal`. -/
theorem noError_or_cause (p : FreePick) (i : Instr) (b : Block) :
    NoError b (effectOf p i b.clearResults) ∨ (∃ e, RejectCause b i e) ∨ ∃ e, FatalCause b i e := by
  cases i with
  | mkstd =>
    rcases Nat.lt_or_ge 0x7FF b.opa.toNat with hgt | hle
    · exact .inr (.inl ⟨_, .standardRange hgt⟩)
    · exact .inl (by rw [effectOf, mkstdEffect_of_le (b := b.clearResults) hle]; exact noError_of_eq rfl rfl)
  | mkext =>
    rcases Nat.lt_or_ge 0x1FFFFFFF b.opa.toNat with hgt | hle
    · exact .inr (.inl ⟨_, .extendedRange hgt⟩)
    · exact .inl (by rw [effectOf, mkextEffect_of_le (b := b.clearResults) hle]; exact noError_of_eq rfl rfl)
  | mkrmt x =>
    rcases Nat.lt_or_ge 8 b.opb.toNat with hgt | hle
    · exact .inr (.inl ⟨_, .remoteLength hgt⟩)
    · exact .inl (by
        rw [effectOf, mkrmtEffect_of_le (b := b.clearResults) hle]
        exact noError_of_eq (congrArg Rstat.err (setFrame_rs ..)) (setFrame_ph ..))
  | mkdata x =>
    rcases Nat.lt_or_ge 8 b.opb.toNat with hgt | hle
    · exact .inr (.inr ⟨_, .dataLength hgt⟩)
    · exact .inl (by
        rw [effectOf, mkdataEffect_of_le (b := b.clearResults) hle]
        exact noError_of_eq (congrArg Rstat.err (setFrame_rs ..)) (setFrame_ph ..))
  | tx =>
    rcases Nat.lt_or_ge 8 b.fa.dlc.toNat with hgt | hle
    · exact .inr (.inr ⟨_, .txLength hgt⟩)
    · exact .inl (by
        rw [effectOf, txEffect_of_le (b := b.clearResults) hle]
        exact ⟨rfl, fun h => absurd h (txPhase_ne_halt _)⟩)
  | nop | setrtr | decid | cmp | feq | fcmp | idle | bstart | bdone => exact .inl (noError_of_eq rfl rfl)

/-! ### Reject -/

theorem isCommand_of_ne {i : Instr} (hs : i ≠ .bstart) (hd : i ≠ .bdone) : i.isCommand = true := by
  cases i with
  | bstart => exact absurd rfl hs
  | bdone => exact absurd rfl hd
  | _ => rfl

/-- A command does the same whatever the result fields hold, for it clears them first (R84, R200). -/
theorem exec_clearResults {j : Instr} {t : State} (hj : j.isCommand = true) (ha : t.blk.accepting) :
    exec j t = exec j { t with blk := t.blk.clearResults } := by
  rw [exec_of_accepting hj ha, exec_of_accepting (s := { t with blk := t.blk.clearResults }) hj ha]
  rfl

/-- Settles O46: of the three ways a command can end, the one that sets `ERR` without halting is the `Reject`. -/
theorem rejectTouchesOnlyRstat : Obligations.RejectTouchesOnlyRstat := by
  intro s t i ha ⟨hnotStart, hnotDone⟩ hexec herr hph
  have hcmd : i.isCommand = true := isCommand_of_ne hnotStart hnotDone
  rcases noError_or_cause s.pick i s.blk with ⟨hclear, -⟩ | ⟨e, hcause⟩ | ⟨e, hcause⟩
  · rw [exec_of_accepting hcmd ha] at hexec
    cases hexec
    exact absurd (hclear.symm.trans herr) Bool.false_ne_true
  · rw [exec_of_reject hcmd ha (effectOf_of_rejectCause hcause)] at hexec
    cases hexec
    refine ⟨?_, rfl, ?_, ha, fun j hs hd => exec_clearResults (isCommand_of_ne hs hd) ha⟩
    · cases hcause <;> simp
    · cases hcause <;> simp
  · rw [exec_of_fatal hcmd ha (effectOf_of_fatalCause hcause)] at hexec
    cases hexec
    exact absurd rfl hph

/-! ### Fatal -/

theorem checkSlot_ph_ne_halt (i : Slot) {n : Phase} (hn : n ≠ .halt) (b : Block) : (checkSlot i n b).ph ≠ .halt := by
  unfold checkSlot
  split
  · simp
  · exact hn

/-- No phase step halts, so no `Fatal` is raised in the middle of a `TX` (R194). -/
theorem seqStep_ph_ne_halt {b c : Block} (h : b.seqStep = some c) : c.ph ≠ .halt := by
  unfold Block.seqStep at h
  split at h <;> rename_i hp <;> simp only [Option.some.injEq, reduceCtorEq] at h <;> subst h
  · exact checkSlot_ph_ne_halt .s0 (by simp) b
  · exact checkSlot_ph_ne_halt .s1 (by simp) b
  · exact checkSlot_ph_ne_halt .s2 (by simp) b
  · simp
  · split <;> simp [hp]
  · simp [writeTarget]

/-- The words whose write to `CMD` halts the block, with their error codes (R194). -/
inductive HaltCause (b : Block) (w : Word) : ErrorCode → Prop
  | illegal {d : DecodeError} (hd : decode (.cmd w) = .error d) : HaltCause b w .illCmd
  | command {i : Instr} {e : ErrorCode} (hd : decode (.cmd w) = .ok i) (h : FatalCause b i e) : HaltCause b w e

/-- A move that halts, other than a reset, is an accepted write to `CMD` of a word with one of the causes. -/
theorem haltCause_of_move {p : FreePick} {x : Input} {b c : Block} (m : Move p x b c) (hx : ∀ v, x ≠ .rst v)
    (hb : b.ph ≠ .halt) (hc : c.ph = .halt) :
    ∃ w e, x = .host (.write 0 .word w) ∧ b.accepting ∧ HaltCause b w e := by
  cases m with
  | stay => exact absurd hc hb
  | store => exact absurd ((storeReg_ph ..).symm.trans hc) hb
  | @command w i b ha hd =>
    rcases noError_or_cause p i b with ⟨-, hkeep⟩ | ⟨e, hcause⟩ | ⟨e, hcause⟩
    · exact absurd (hkeep hc) hb
    · rw [effectOf_of_rejectCause hcause] at hc
      exact absurd hc hb
    · exact ⟨w, e, rfl, ha, .command hd hcause⟩
  | illegal ha hd => exact ⟨_, _, rfl, ha, .illegal hd⟩
  | seq h => exact absurd hc (seqStep_ph_ne_halt h)
  | ares => exact absurd ((ares_ph ..).symm.trans hc) hb
  | bstart => exact absurd ((bstart_ph _).symm.trans hc) hb
  | bdone => exact absurd ((bdone_ph _).symm.trans hc) hb
  | rst v => exact absurd rfl (hx v)

/-- The whole effect of a halting write to `CMD` (R194). -/
theorem step_of_haltCause {s : State} {w : Word} {e : ErrorCode} {rest : List Input} (hcause : HaltCause s.blk w e)
    (ha : s.blk.accepting) (hs : s.inputs = .host (.write 0 .word w) :: rest) :
    step s = .next { s with inputs := rest, blk := { s.blk with
      rs := { Rstat.cleared with err := true, ecode := e }, ph := .halt } } := by
  cases hcause with
  | illegal hd => exact step_illegal hd ha hs
  | @command i e hd hcause =>
    have hstep : step s = exec i { s with inputs := rest } := (step_cons hs).trans (runInput_inputOf hd _)
    rw [hstep]
    exact exec_of_fatal (s := { s with inputs := rest }) (isCommand_of_decode hd) ha (effectOf_of_fatalCause hcause)

/-- `RSTAT.PH` stands at bits 22:20 (R39). -/
theorem rstatWord_ph (b : Block) : b.rstatWord.extractLsb' 20 3 = b.ph.code := by
  unfold Block.rstatWord
  repeat rw [BitVec.extractLsb'_append_eq_of_le (by decide)]
  exact BitVec.extractLsb'_append_eq_right

/-- Settles O47: the moves of `Move` that halt have one of the three causes, and the cause says the whole step. -/
theorem fatalOnlyFromCommandWrites : Obligations.FatalOnlyFromCommandWrites := by
  intro s t x rest hs hx hstep hph hhalt
  obtain ⟨w, e, rfl, ha, hcause⟩ := haltCause_of_move (step_move_cons hs hstep) hx hph hhalt
  rw [step_of_haltCause hcause ha hs] at hstep
  cases hstep
  refine ⟨⟨w, rfl, ?_⟩, ha, rfl, rstatWord_fatal _, rstatWord_ph _⟩
  cases hcause with
  | illegal hd => exact .inl ⟨fun i => by simp [hd], rfl⟩
  | command hd hfatal =>
    cases hfatal with
    | dataLength h => exact .inr (.inl ⟨⟨_, hd⟩, h, rfl⟩)
    | txLength h => exact .inr (.inr ⟨hd, h, rfl⟩)

end Sys2Proof.Machine

/-! SUPPORT. Proofs about the reset (70_reset_and_hazards.md R220, R221): its whole effect from any state, the words
read after it, and what no other event can do: leave the halt, or empty a slot without reporting it. -/

namespace Sys2Proof.Machine

/-! ### The reset itself -/

/-- A reset happens in every state, also while busy or halted (R220). -/
theorem step_reset {s : State} {v : ResetValues} {rest : List Input} (hs : s.inputs = .rst v :: rest) :
    step s = .next { s with inputs := rest, blk := .resetWith v } := step_cons hs

theorem slot_resetWith_flags (v : ResetValues) (i : Slot) :
    ((Block.resetWith v).slot i).flags = (.empty, false, false, false) := by simp [Mailbox.flags]

/-- With every slot empty the bus engine has nothing to start (10_state.md R37). -/
theorem sel_of_all_empty {b : Block} (h : ∀ i, (b.slot i).st = .empty) : b.sel = none := by
  refine Option.eq_none_iff_forall_ne_some.2 fun i hi => ?_
  have hpending := (st_of_sel hi).1
  simp [h i] at hpending

/-- With every slot empty `CODE` is what `FREE_PICK` picks among the three (10_state.md R36). -/
theorem code_of_all_empty {b : Block} (h : ∀ i, (b.slot i).st = .empty) (p : FreePick) :
    b.code p = p.pick true true true := by
  rw [Block.code, if_pos ((tme_ne_zero_iff b).2 ⟨.s0, h .s0⟩)]
  have hisEmpty : ∀ i, (b.slot i).isEmpty = true := fun i => by simp [Mailbox.isEmpty, h i]
  exact congr (congr (congrArg _ (hisEmpty .s0)) (hisEmpty .s1)) (hisEmpty .s2)

/-- The word `STATUS` after a reset: `TME` is `0b111`, `CODE` the pick, and every other field 0 (10_state.md R38). -/
theorem statusWord_resetWith (p : FreePick) (v : ResetValues) :
    (Block.resetWith v).statusWord p = 0x00000070#32 ||| (p.pick true true true).code.setWidth 32 := by
  have hempty := slot_resetWith_st v
  have htme : (Block.resetWith v).tme = 0b111#3 := (tme_eq_ones_iff _).2 hempty
  simp only [Block.statusWord, sel_of_all_empty hempty, code_of_all_empty hempty, htme, slot_resetWith_st,
    slot_resetWith_abrq, slot_resetWith_rqcp, slot_resetWith_txok]
  cases p.pick true true true <;> decide

theorem rstatWord_resetWith (v : ResetValues) : (Block.resetWith v).rstatWord = 0 :=
  (rstatWord_congr (b := State.reset.blk) rfl rfl).trans (by decide)

/-- Bit 0 of the word read at a slot's `ID` offset is `TXRQ` (10_state.md R21). -/
theorem getLsbD_idRead_zero (m : Mailbox) : m.idRead.getLsbD 0 = m.txrq := by
  rw [Mailbox.idRead, BitVec.getLsbD_append]
  simp

/-- Settles O49: a reset gives `Block.resetWith`, whose stored elements are those of the table by definition; the words
read follow from every slot being empty. -/
theorem resetValuesAndWords : Obligations.ResetValuesAndWords := by
  intro s v rest hs
  refine ⟨_, step_reset hs, rfl, slot_resetWith_flags v, rfl, rfl, rfl, rfl, rfl, rfl, rfl, rfl, rfl, rfl, rfl, rfl, rfl,
    rfl, rstatWord_resetWith v, statusWord_resetWith s.pick v, rfl, rfl, fun i => ?_⟩
  have htxrq : ((Block.resetWith v).slot i).txrq = false := by simp [Mailbox.txrq]
  exact (getLsbD_idRead_zero _).trans htxrq

/-! ### What only a reset does -/

section NotReset

variable {p : FreePick} {x : Input} {b c : Block}

/-- A halted block accepts no command, has no phase step, and the moves of the other agents keep the phase (R195). -/
theorem move_halted (m : Move p x b c) (hx : ∀ v, x ≠ .rst v) (hb : b.ph = .halt) : c.ph = .halt := by
  have hna : ¬b.accepting := fun ha => Phase.noConfusion (ha.symm.trans hb)
  cases m with
  | stay => exact hb
  | store ha | command ha | illegal ha => exact absurd ha hna
  | seq h => simp [Block.seqStep, hb] at h
  | ares => exact (ares_ph ..).trans hb
  | bstart => exact (bstart_ph _).trans hb
  | bdone => exact (bdone_ph _).trans hb
  | rst v => exact absurd rfl (hx v)

/-- Of the changes a slot can undergo only `ARES` and `BDONE` empty it, and both set `rqcp` (R164, R166). -/
theorem rqcp_of_emptied (m : Move p x b c) (hx : ∀ v, x ≠ .rst v) {i : Slot} (hb : (b.slot i).st ≠ .empty)
    (hc : (c.slot i).st = .empty) : (c.slot i).rqcp = true := by
  rcases move_slot m hx i with
    h | ⟨-, -, -, -, h⟩ | ⟨-, -, -, h⟩ | ⟨-, -, -, h⟩ | ⟨-, -, h⟩ | ⟨-, -, h⟩ <;> rw [h] at hc ⊢
  · exact absurd hc hb
  · exact absurd hc hb
  · simp at hc
  · rfl
  · simp at hc
  · rfl

end NotReset

/-- `RSTAT.FATAL` reads 1 exactly in the halt (10_state.md R39). -/
theorem rstatWord_fatal_iff (b : Block) : b.rstatWord.getLsbD 1 = true ↔ b.ph = .halt := by
  rw [rstatWord_fatal]
  cases b.ph <;> simp [Phase.fatal]

/-- Settles O50: a reset has its whole effect in any state; every other event is a move that keeps the halt, which is
`FATAL`, and empties slots only with `rqcp`. -/
theorem onlyResetLeavesHaltOrDropsAFrame : Obligations.OnlyResetLeavesHaltOrDropsAFrame := by
  refine ⟨fun s v rest hs => step_reset hs, fun s t x rest hs hx hstep => ?_⟩
  have hmove := step_move_cons hs hstep
  rw [rstatWord_fatal_iff, rstatWord_fatal_iff]
  exact ⟨move_halted hmove hx, move_halted hmove hx, fun i => rqcp_of_emptied hmove hx⟩

end Sys2Proof.Machine

/-! SUPPORT. Proofs about the words and the step (30_encoding.md R84 to R88): the decoder and the encoder are inverse to
each other, and a step runs the instruction its event carries. -/

namespace Sys2Proof

/-! ### Decoder and encoder -/

/-- Every encoded instruction decodes to itself: the encoder writes the row of the table that the decoder reads. -/
theorem decode_encode (i : Instr) : decode (encode i) = .ok i := by
  cases i with
  | mkdata f | mkrmt f => cases f <;> rfl
  | _ => rfl

theorem encode_decodeBusEvent (e : BitVec 1) : encode (decodeBusEvent e) = .busEvent e := by
  rcases busEvent_cases e with rfl | rfl <;> rfl

/-- A word that decodes is the encoding of what it decodes to. -/
theorem encode_of_decode {fw : FetchWord} {i : Instr} (h : decode fw = .ok i) : encode i = fw := by
  cases fw with
  | cmd w => exact encode_of_decode_cmd h
  | busEvent e =>
    rw [decode_busEvent, Except.ok.injEq] at h
    rw [← h, encode_decodeBusEvent]

/-- Settles O3: each direction is one lemma; the operand of an instruction has no value that its word cannot carry. -/
theorem decodeEncodeAgree : Obligations.DecodeEncodeAgree :=
  fun _ i _ => ⟨encode_of_decode, fun h => h ▸ decode_encode i⟩

/-- Settles O2: each word is the encoding of its operation. -/
theorem specWordsDecode : Obligations.SpecWordsDecode :=
  ⟨decode_encode .nop, decode_encode .mkstd, decode_encode .mkext, decode_encode .setrtr, decode_encode .decid,
    decode_encode .cmp, decode_encode (.mkdata .fa), decode_encode (.mkdata .fb), decode_encode (.mkrmt .fa),
    decode_encode (.mkrmt .fb), decode_encode .feq, decode_encode .fcmp, decode_encode .tx, decode_encode .idle,
    decode_encode .bstart, decode_encode .bdone⟩

theorem decodeTableWord_eq_some {nbits w : Nat} {i : Instr} (h : decodeTableWord nbits w = some i) :
    ∃ fw, fetchWordOf nbits w = some fw ∧ decode fw = .ok i := by
  unfold decodeTableWord at h
  split at h
  · cases h
  · rename_i fw hfw
    split at h
    · rename_i j hj
      cases h
      exact ⟨fw, hfw, hj⟩
    · cases h

end Sys2Proof

namespace Sys2Proof.Machine

/-! ### The step -/

/-- The step whose event carries an encoded instruction executes it (R72, R87). -/
theorem step_of_decode {s : State} {fw : FetchWord} {i : Instr} {rest : List Input} (hs : s.inputs = inputOf fw :: rest)
    (hd : decode fw = .ok i) : step s = exec i { s with inputs := rest } :=
  (step_cons hs).trans (runInput_inputOf hd _)

/-- A word of the opcode table is scheduled as the next event, and nothing else changes. -/
theorem withFetchWord_of_some {nbits w : Nat} {fw : FetchWord} (h : fetchWordOf nbits w = some fw) (s : State) :
    s.withFetchWord nbits w = { s with inputs := inputOf fw :: s.inputs } := by
  simp only [State.withFetchWord, scheduleWord, h]

/-- Settles O1: a word of the opcode table is first scheduled as an event, which the next step takes off again. -/
theorem stepRunsDecodedWord : Obligations.StepRunsDecodedWord := by
  refine ⟨fun s fw i rest => step_of_decode, fun s nbits w i h => ?_⟩
  obtain ⟨fw, hfw, hd⟩ := decodeTableWord_eq_some h
  rw [withFetchWord_of_some hfw, step_of_decode rfl hd]

/-! ### The model's own fields -/

theorem onBlock_of_command {f : Block → Block} {s t : State} (h : command f s = .next t) : ∃ g, t = s.onBlock g :=
  ⟨_, (Host.Outcome.next.inj h).symm⟩

theorem onBlock_of_exec {i : Instr} {s t : State} (h : exec i s = .next t) : ∃ g, t = s.onBlock g := by
  cases i with
  | bstart | bdone => exact ⟨_, (Host.Outcome.next.inj h).symm⟩
  | _ => exact onBlock_of_command ((exec_command rfl s).symm.trans h)

theorem onBlock_of_hostWrite {r : Reg} {v : Word} {s t : State} (h : hostWrite r v s = .next t) :
    ∃ g, t = s.onBlock g := by
  by_cases hr : r = .cmd
  · subst hr
    simp only [hostWrite, issueCommand] at h
    split at h
    · exact onBlock_of_exec h
    · exact onBlock_of_command h
  · rw [hostWrite_of_ne_cmd hr] at h
    exact ⟨_, (Host.Outcome.next.inj h).symm⟩

/-- A read that is answered reaches a register, and changes the last word read alone (20_memory.md R65). -/
theorem read_of_runInput {off : BitVec 8} {size : Size} {s t : State}
    (h : runInput (.host (.read off size)) s = .next t) :
    ∃ r, regAt off = some r ∧ t = { s with rdata := some (s.blk.readReg s.pick r) } := by
  cases ht : (Access.read off size).target with
  | none =>
    rw [runInput, hostAccess_of_target_none ht] at h
    cases h
  | some r =>
    have hwf : (Access.read off size).wellFormed = true := by
      by_contra hno
      rw [Access.target_of_not_wellFormed (Bool.eq_false_iff.2 hno)] at ht
      cases ht
    simp only [runInput, hostAccess, ht] at h
    exact ⟨r, (Access.target_read hwf).symm.trans ht, (Host.Outcome.next.inj h).symm⟩

/-- Every event but a host read changes the block alone. -/
theorem onBlock_of_runInput {x : Input} {s t : State} (hx : ∀ off size, x ≠ .host (.read off size))
    (h : runInput x s = .next t) : ∃ g, t = s.onBlock g := by
  cases x with
  | host a =>
    cases a with
    | read off size => exact absurd rfl (hx off size)
    | write off size v =>
      cases ht : (Access.write off size v).target with
      | none =>
        rw [runInput, hostAccess_of_target_none ht] at h
        cases h
      | some r =>
        simp only [runInput, hostAccess, ht] at h
        exact onBlock_of_hostWrite h
  | seq =>
    simp only [runInput, seqAgent] at h
    split at h
    · cases h
    · exact ⟨_, (Host.Outcome.next.inj h).symm⟩
  | ares i =>
    simp only [runInput, mbcAgent] at h
    split at h
    · exact ⟨_, (Host.Outcome.next.inj h).symm⟩
    · cases h
  | bus e => exact onBlock_of_exec h
  | rst v => exact ⟨_, (Host.Outcome.next.inj h).symm⟩

/-- Settles O60: a host read sets the last word read, every other event changes the block alone, and the step has taken
the event off the schedule before. -/
theorem stepKeepsTheModelsOwnFields : Obligations.StepKeepsTheModelsOwnFields := by
  intro s t h
  cases hs : s.inputs with
  | nil =>
    rw [step, stepAgents, hs] at h
    cases h
    exact ⟨rfl, hs, fun _ => rfl⟩
  | cons x rest =>
    rw [step_cons hs] at h
    by_cases hx : ∃ off size, x = .host (.read off size)
    · obtain ⟨off, size, rfl⟩ := hx
      obtain ⟨r, -, rfl⟩ := read_of_runInput h
      exact ⟨rfl, rfl, fun hno => absurd rfl (hno off size rest)⟩
    · obtain ⟨g, rfl⟩ := onBlock_of_runInput (fun off size e => hx ⟨off, size, e⟩) h
      exact ⟨rfl, rfl, fun _ => rfl⟩

/-- Settles O41: the step takes the event off, and the read then changes the last word read alone. -/
theorem readsHaveNoSideEffect : Obligations.ReadsHaveNoSideEffect := by
  intro s t off size rest hs h
  rw [step_cons hs] at h
  obtain ⟨r, hr, rfl⟩ := read_of_runInput h
  exact ⟨rfl, rfl, rfl, r, hr, rfl⟩

/-! ### Steps that are not enabled -/

theorem seqStep_eq_none_iff (b : Block) : b.seqStep = none ↔ b.ph = .idle ∨ b.ph = .halt := by
  cases h : b.ph <;> simp [Block.seqStep, h]

theorem seqAgent_of_none {s : State} (h : s.blk.seqStep = none) : seqAgent s = .refused .stepNotEnabled := by
  simp only [seqAgent, h]

/-- Settles O33: SEQ has a step in every phase but two, and `ARES` answers where its test holds. -/
theorem disabledStepsAreRefused : Obligations.DisabledStepsAreRefused := by
  refine ⟨fun s rest hs => ⟨fun hp => ?_, fun hidle hhalt => ?_⟩, fun s i rest hs hno => ?_⟩
  · exact (step_cons hs).trans (seqAgent_of_none ((seqStep_eq_none_iff s.blk).2 hp))
  · obtain ⟨c, hc⟩ := Option.ne_none_iff_exists'.1 (mt (seqStep_eq_none_iff s.blk).1 (by simp [hidle, hhalt]))
    exact ⟨_, step_seq hs hc⟩
  · exact (step_cons hs).trans (if_neg (mt (aresEnabled_iff s.blk i).1 hno))

/-! ### What a command leaves unchanged -/

/-- What the effect of every command but `TX` leaves of the block (40_identifier.md R110). -/
theorem effectOf_frame {i : Instr} (hi : i ≠ .tx) (p : FreePick) (b : Block) :
    effectOf p i b = { b with
      res := (effectOf p i b).res, fa := (effectOf p i b).fa, fb := (effectOf p i b).fb,
      rs := (effectOf p i b).rs, ph := (effectOf p i b).ph } := by
  cases i with
  | tx => exact absurd rfl hi
  | mkstd => simp only [effectOf, mkstdEffect]; split <;> rfl
  | mkext => simp only [effectOf, mkextEffect]; split <;> rfl
  | mkdata x => cases x <;> (simp only [effectOf, mkdataEffect]; split <;> rfl)
  | mkrmt x => cases x <;> (simp only [effectOf, mkrmtEffect]; split <;> rfl)
  | _ => rfl

theorem effectOf_res {i : Instr} (hi : i ≠ .mkstd ∧ i ≠ .mkext ∧ i ≠ .setrtr ∧ i ≠ .decid) (p : FreePick) (b : Block) :
    (effectOf p i b).res = b.res := by
  cases i with
  | mkstd | mkext | setrtr | decid => simp at hi
  | mkdata x => simp only [effectOf, mkdataEffect]; split <;> simp
  | mkrmt x => simp only [effectOf, mkrmtEffect]; split <;> simp
  | tx => simp only [effectOf, txEffect]; split <;> rfl
  | _ => rfl

/-- A frame register changes only by the commands that construct it. -/
theorem effectOf_frameRegister {i : Instr} {x : FSel} (hdata : i ≠ .mkdata x) (hrmt : i ≠ .mkrmt x) (p : FreePick)
    (b : Block) : (effectOf p i b).frame x = b.frame x := by
  cases i with
  | mkdata y =>
    have hxy : x ≠ y := fun h => hdata (h ▸ rfl)
    simp only [effectOf, mkdataEffect]
    split
    · cases x <;> rfl
    · rw [frame_setFrame, if_neg hxy]
  | mkrmt y =>
    have hxy : x ≠ y := fun h => hrmt (h ▸ rfl)
    simp only [effectOf, mkrmtEffect]
    split
    · cases x <;> rfl
    · rw [frame_setFrame, if_neg hxy]
  | mkstd => simp only [effectOf, mkstdEffect]; split <;> cases x <;> simp [Block.frame]
  | mkext => simp only [effectOf, mkextEffect]; split <;> cases x <;> simp [Block.frame]
  | tx => simp only [effectOf, txEffect]; split <;> cases x <;> simp [Block.frame]
  | _ => cases x <;> rfl

/-- Of the commands but `TX` only `MKDATA` of a length above 8 changes the phase: it halts (41_frame.md R132). -/
theorem effectOf_ph {i : Instr} (hi : i ≠ .tx) (p : FreePick) (b : Block) :
    (effectOf p i b).ph = b.ph ∨ (∃ x, i = .mkdata x) ∧ 8 < b.opb.toNat ∧ (effectOf p i b).ph = .halt := by
  cases i with
  | tx => exact absurd rfl hi
  | mkdata x =>
    rcases Nat.lt_or_ge 8 b.opb.toNat with hgt | hle
    · exact .inr ⟨⟨x, rfl⟩, hgt, congrArg Block.ph (mkdataEffect_of_gt hgt)⟩
    · exact .inl ((congrArg Block.ph (mkdataEffect_of_le hle)).trans (setFrame_ph ..))
  | mkrmt x => left; simp only [effectOf, mkrmtEffect]; split <;> simp
  | mkstd => left; simp only [effectOf, mkstdEffect]; split <;> rfl
  | mkext => left; simp only [effectOf, mkextEffect]; split <;> rfl
  | _ => exact .inl rfl

theorem exec_of_not_accepting {i : Instr} {s : State} (hi : i.isCommand = true) (h : ¬s.blk.accepting) :
    exec i s = .next s := (exec_command hi s).trans (command_of_not_accepting h _)

/-- Settles O23: an ignored command changes nothing, and an accepted one what its effect may change. -/
theorem commandsLeaveSlotsAlone : Obligations.CommandsLeaveSlotsAlone := by
  intro s t i hi h
  have htx : i ≠ .tx := by rintro rfl; simp at hi
  have hcmd : i.isCommand = true := isCommand_of_ne (by rintro rfl; simp at hi) (by rintro rfl; simp at hi)
  by_cases ha : s.blk.accepting
  · rw [exec_of_accepting hcmd ha] at h
    cases h
    have hframe := effectOf_frame htx s.pick s.blk.clearResults
    refine ⟨fun j => ?_, (congrArg Block.age hframe :), (congrArg Block.ev hframe :), (congrArg Block.snap hframe :),
      (congrArg Block.tgt hframe :), (congrArg Block.opa hframe :), (congrArg Block.opb hframe :),
      fun hres => effectOf_res hres _ _,
      fun ⟨hdata, hrmt⟩ => effectOf_frameRegister (x := .fa) hdata hrmt _ _,
      fun ⟨hdata, hrmt⟩ => effectOf_frameRegister (x := .fb) hdata hrmt _ _, ?_, rfl, rfl, rfl⟩
    · rw [slot_effectOf, slot_clearResults]
    · exact (effectOf_ph htx s.pick s.blk.clearResults).imp_right fun ⟨hx, hlen, hhalt⟩ => ⟨hx, ha, hlen, hhalt⟩
  · rw [exec_of_not_accepting hcmd ha] at h
    cases h
    simp

/-- What the first phase of `TX` leaves of the block (42_mailbox.md R151, R173). -/
theorem txEffect_frame (p : FreePick) (b : Block) :
    txEffect p b = { b with
      rs := (txEffect p b).rs, ph := (txEffect p b).ph, snap := (txEffect p b).snap, tgt := (txEffect p b).tgt } := by
  unfold txEffect
  split <;> rfl

@[simp] theorem effectOf_age (p : FreePick) (i : Instr) (b : Block) : (effectOf p i b).age = b.age := by
  by_cases hi : i = .tx
  · subst hi; exact (congrArg Block.age (txEffect_frame p b) :)
  · exact (congrArg Block.age (effectOf_frame hi p b) :)

@[simp] theorem effectOf_ev (p : FreePick) (i : Instr) (b : Block) : (effectOf p i b).ev = b.ev := by
  by_cases hi : i = .tx
  · subst hi; exact (congrArg Block.ev (txEffect_frame p b) :)
  · exact (congrArg Block.ev (effectOf_frame hi p b) :)

/-- Settles O45: a host access does nothing, stores an operand, or writes a command, which stands at offset 0. -/
theorem hostNeverWritesSlots : Obligations.HostNeverWritesSlots := by
  intro s t a rest hs hstep
  have hmove := step_move_cons hs hstep
  generalize s.blk = b at hmove ⊢
  generalize t.blk = c at hmove ⊢
  cases hmove with
  | stay => simp
  | store => simp
  | command => simp [Access.off]
  | illegal => simp [Access.off]

/-! ### The first phase and the checks of a `TX` -/

/-- A first phase that raises an error has taken no snapshot (R151). -/
theorem txEffect_of_err {p : FreePick} {b : Block} (hclear : b.rs.err = false) (h : (txEffect p b).rs.err = true) :
    (txEffect p b).snap = b.snap ∧ (txEffect p b).tgt = b.tgt := by
  rcases Nat.lt_or_ge 8 b.fa.dlc.toNat with hgt | hle
  · rw [txEffect_of_gt hgt]
    exact ⟨rfl, rfl⟩
  · rw [txEffect_of_le hle] at h
    exact absurd (hclear.symm.trans h) Bool.false_ne_true

/-- What a check leaves of the block (R152 to R154). -/
theorem checkSlot_frame (i : Slot) (n : Phase) (b : Block) :
    checkSlot i n b = { b with rs := (checkSlot i n b).rs, ph := (checkSlot i n b).ph } := by
  unfold checkSlot
  split <;> rfl

/-- The check phases, each with the slot it checks and the phase that follows (R152 to R154). -/
inductive Checks : Phase → Slot → Phase → Prop
  | chk0 : Checks .chk0 .s0 .chk1
  | chk1 : Checks .chk1 .s1 .chk2
  | chk2 : Checks .chk2 .s2 .abort

/-- What one SEQ step does, phase by phase (R152 to R157). -/
inductive SeqMove (b : Block) : Block → Prop
  | check {i : Slot} {n : Phase} (h : Checks b.ph i n) : SeqMove b (checkSlot i n b)
  | abort (h : b.ph = .abort) : SeqMove b (abortTarget b)
  | held (h : b.ph = .wait) (habrq : (b.slot b.tgt).abrq = true) : SeqMove b b
  | resolved (h : b.ph = .wait) (habrq : (b.slot b.tgt).abrq = false) : SeqMove b (readBack b)
  | write (h : b.ph = .write) : SeqMove b (writeTarget b)

theorem seqMove_of_seqStep {b c : Block} (h : b.seqStep = some c) : SeqMove b c := by
  cases hp : b.ph <;> simp only [Block.seqStep, hp, Option.some.injEq, reduceCtorEq] at h <;> subst h
  case chk0 => exact .check (hp ▸ .chk0)
  case chk1 => exact .check (hp ▸ .chk1)
  case chk2 => exact .check (hp ▸ .chk2)
  case abort => exact .abort hp
  case wait =>
    split
    · exact .held hp ‹_›
    · exact .resolved hp (Bool.eq_false_iff.2 ‹_›)
  case write => exact .write hp

/-- Settles O58: an ignored `TX` changes nothing; an accepted one and a check have the effects named. -/
theorem retryAndRefusalChangeNoSlot : Obligations.RetryAndRefusalChangeNoSlot := by
  rintro s t (htx | ⟨rest, hs, hp, hstep⟩)
  · by_cases ha : s.blk.accepting
    · rw [exec_of_accepting rfl ha] at htx
      cases htx
      exact ⟨txEffect_frame s.pick s.blk.clearResults, fun herr _ => txEffect_of_err rfl herr⟩
    · rw [exec_of_not_accepting rfl ha] at htx
      cases htx
      exact ⟨rfl, fun _ hacc => absurd hacc ha⟩
  · have hmove := step_move_cons hs hstep
    generalize s.blk = b at hp hmove ⊢
    generalize t.blk = c at hmove ⊢
    have hna : ¬b.accepting := fun hacc => by
      rw [show b.ph = .idle from hacc] at hp
      simp at hp
    refine ⟨?_, fun _ hacc => absurd hacc hna⟩
    cases hmove with
    | seq hc =>
      cases seqMove_of_seqStep hc with
      | @check i n h => rw [checkSlot_frame i n b]
      | abort h | held h | resolved h | write h => simp [h] at hp

end Sys2Proof.Machine

/-! SUPPORT. Proofs about the invariant (10_state.md R43, 42_mailbox.md R169, R170) and the halt (60_exceptions.md
R195): what MBC and BUS can change, that every move keeps the invariant, and what follows for an eviction and a halted
block. -/

namespace Sys2Proof.Machine

/-! ### What MBC and BUS can change -/

/-- The second block is the first but for its slots. -/
def SlotsOnly (b c : Block) : Prop := c = { b with mb0 := c.mb0, mb1 := c.mb1, mb2 := c.mb2 }

theorem slotsOnly_refl (b : Block) : SlotsOnly b b := rfl

theorem slotsOnly_trans {b c d : Block} (hbc : SlotsOnly b c) (hcd : SlotsOnly c d) : SlotsOnly b d :=
  hcd.trans (congrArg (fun e : Block => { e with mb0 := d.mb0, mb1 := d.mb1, mb2 := d.mb2 }) hbc)

theorem slotsOnly_setSlot (b : Block) (i : Slot) (m : Mailbox) : SlotsOnly b (b.setSlot i m) := by
  cases i <;> rfl

theorem slotsOnly_bstart (b : Block) : SlotsOnly b b.bstart := by
  unfold Block.bstart
  split
  · exact slotsOnly_refl b
  · exact slotsOnly_setSlot ..

theorem slotsOnly_bdone (b : Block) : SlotsOnly b b.bdone := by
  unfold Block.bdone
  split
  · exact slotsOnly_refl b
  · exact slotsOnly_setSlot ..

/-- What MBC and BUS can do to one slot (R164 to R166). -/
inductive AgentSlot (m : Mailbox) : Mailbox → Prop
  | same : AgentSlot m m
  | aborted (hst : m.st = .pending) (habrq : m.abrq = true) : AgentSlot m (m.emptied false)
  | started (hst : m.st = .pending) (habrq : m.abrq = false) : AgentSlot m { m with st := .inflight }
  | sent (hst : m.st = .inflight) : AgentSlot m (m.emptied true)

/-- An event of MBC or BUS. -/
def Input.isAgent : Input → Bool
  | .ares _ | .bus _ => true
  | .host _ | .seq | .rst _ => false

section Agents

variable {p : FreePick} {x : Input} {b c : Block} (m : Move p x b c) (hx : x.isAgent = true)
include m hx

/-- MBC and BUS change nothing but the slots. -/
theorem slotsOnly_of_move : SlotsOnly b c := by
  cases m with
  | ares => exact slotsOnly_setSlot ..
  | bstart => exact slotsOnly_bstart b
  | bdone => exact slotsOnly_bdone b
  | stay | store | command | illegal | seq | rst => cases hx

theorem agentSlot_of_move (j : Slot) : AgentSlot (b.slot j) (c.slot j) := by
  have hrst : ∀ v, x ≠ .rst v := by rintro v rfl; cases hx
  rcases move_slot m hrst j with
    e | ⟨rfl, -⟩ | ⟨rfl, -⟩ | ⟨-, hst, habrq, e⟩ | ⟨-, hsel, e⟩ | ⟨-, hst, e⟩
  · exact e ▸ .same
  · cases hx
  · cases hx
  · exact e ▸ .aborted hst habrq
  · obtain ⟨hst, habrq, -⟩ := st_of_sel hsel
    exact e ▸ .started hst habrq
  · exact e ▸ .sent hst

end Agents

section AgentSlots

variable {m n : Mailbox} (h : AgentSlot m n)
include h

theorem AgentSlot.content_eq : n.content = m.content := by cases h <;> rfl

/-- MBC and BUS leave an empty slot alone. -/
theorem AgentSlot.eq_of_empty (hm : m.st = .empty) : n = m := by
  cases h with
  | same => rfl
  | aborted hst | started hst | sent hst => exact absurd (hst.symm.trans hm) (by simp)

theorem AgentSlot.everLoaded (hm : m.everLoaded) : n.everLoaded := by
  cases h with
  | same => exact hm
  | aborted | sent => exact .inr rfl
  | started => exact .inl (by simp)

/-- Only `ARES` empties a slot without sending it, and it needs an abort request. -/
theorem AgentSlot.held_or_sent (habrq : m.abrq = false) (hm : m.st ≠ .empty ∨ m.txok = true) :
    n.st ≠ .empty ∨ n.txok = true := by
  cases h with
  | same => exact hm
  | aborted _ hpending => exact absurd (habrq.symm.trans hpending) (by simp)
  | started => exact .inl (by simp)
  | sent => exact .inr rfl

/-- A slot with an abort pending or empty stays so: `BSTART` does not select it. -/
theorem AgentSlot.aborting_or_empty (hm : m.abrq = true ∨ m.st = .empty) : n.abrq = true ∨ n.st = .empty := by
  cases h with
  | same => exact hm
  | aborted | sent => exact .inr rfl
  | started hst habrq => simp [hst, habrq] at hm

/-- A slot that was sent is empty, so MBC and BUS leave its `txok` alone. -/
theorem AgentSlot.sent_stays (hm : m.Sound) (hsent : m.txok = true) : n.txok = true := by
  have hempty : m.st = .empty := by
    by_contra hne
    exact absurd ((hm.heldIsOpen hne).2.symm.trans hsent) (by simp)
  rw [h.eq_of_empty hempty]
  exact hsent

end AgentSlots

/-! ### What holds while a `TX` is in progress, phase by phase -/

theorem busy_of_checking : ∀ {p : Phase}, p.checking = true → p.busy = true
  | .chk0, _ | .chk1, _ | .chk2, _ | .abort, _ => rfl

theorem busy_of_checked : ∀ {p : Phase} {i : Slot}, p.checked i = true → p.busy = true
  | .chk1, _, _ | .chk2, _, _ | .abort, _, _ | .wait, _, _ => rfl

section Phases

variable {b : Block}

/-- With no `TX` in progress only the age bits are bound. -/
theorem txSound_of_not_busy (hp : b.ph.busy = false) (ages : b.age.acyclic) : b.TxSound := by
  have hne : ∀ {q : Phase}, q.busy = true → b.ph ≠ q := fun hq e => by rw [e, hq] at hp; cases hp
  exact {
    frameLength := fun h => absurd (hp.symm.trans h) (by simp)
    writeIntoEmpty := fun h => absurd h (hne rfl)
    emptiedBySending := fun i h =>
      h.elim (fun hc => absurd rfl (hne (busy_of_checking hc))) fun hw => absurd hw.1 (hne rfl)
    waitTarget := fun h => absurd h (hne rfl)
    waitTargetLoaded := fun h => absurd h (hne rfl)
    checkedOutranked := fun i h => absurd rfl (hne (busy_of_checked h))
    ages }

variable (hlen : b.fa.dlc.toNat ≤ 8) (ages : b.age.acyclic)
include hlen ages

theorem txSound_of_write (hp : b.ph = .write) (hempty : (b.slot b.tgt).st = .empty) : b.TxSound where
  frameLength _ := hlen
  writeIntoEmpty _ := hempty
  emptiedBySending i h := by simp [hp, Phase.checking] at h
  waitTarget h := by simp [hp] at h
  waitTargetLoaded h := by simp [hp] at h
  checkedOutranked i h := by simp [hp, Phase.checked] at h
  ages := ages

theorem txSound_of_checking (hp : b.ph.checking = true)
    (hsent : ∀ i, (b.slot i).st ≠ .empty ∨ (b.slot i).txok = true)
    (hchecked : ∀ i, b.ph.checked i = true →
      (b.slot i).txok = true ∨ prioCmp b.fa.id (b.slot i).content.idWord = .higher) : b.TxSound where
  frameLength _ := hlen
  writeIntoEmpty h := by rw [h] at hp; cases hp
  emptiedBySending i _ := hsent i
  waitTarget h := by rw [h] at hp; cases hp
  waitTargetLoaded h := by rw [h] at hp; cases hp
  checkedOutranked := hchecked
  ages := ages

end Phases

/-! ### Every move keeps the invariant -/

theorem acyclic_resetWith (v : ResetValues) : (Block.resetWith v).age.acyclic := by
  simp [Age.acyclic, Block.resetWith]

theorem resetWith_inv (v : ResetValues) : (Block.resetWith v).Inv :=
  ⟨resetWith_slotsSound v, txSound_of_not_busy rfl (acyclic_resetWith v)⟩

/-- Settles O51: every slot is empty and no `TX` is in progress. -/
theorem invariantAtReset : Obligations.InvariantAtReset := resetWith_inv

/-- `TX` goes to `WRITE` with an empty target, or to the checks with every slot full (R151). -/
theorem txEffect_txSound {b : Block} (ages : b.age.acyclic) (p : FreePick) : (txEffect p b).TxSound := by
  rcases Nat.lt_or_ge 8 b.fa.dlc.toNat with hgt | hlen
  · rw [txEffect_of_gt hgt]
    exact txSound_of_not_busy rfl ages
  · rw [txEffect_of_le hlen]
    by_cases hempty : ∃ i, (b.slot i).st = .empty
    · exact txSound_of_write hlen ages (txPhase_of_empty hempty) (code_of_empty p hempty)
    · have hfull : ∀ i, (b.slot i).st ≠ .empty := not_exists.1 hempty
      rw [txPhase_of_full hfull]
      exact txSound_of_checking hlen ages rfl (fun i => .inl (hfull i)) fun i h => by simp [Phase.checked] at h

/-- An accepted command other than `TX` starts no `TX`. -/
theorem effectOf_not_busy {i : Instr} (hi : i ≠ .tx) (p : FreePick) {b : Block} (hb : b.ph.busy = false) :
    (effectOf p i b).ph.busy = false := by
  rcases effectOf_ph hi p b with h | ⟨-, -, h⟩ <;> rw [h]
  · exact hb
  · rfl

theorem effectOf_txSound {b : Block} (ha : b.accepting) (ages : b.age.acyclic) (p : FreePick) (i : Instr) :
    (effectOf p i b.clearResults).TxSound := by
  by_cases hi : i = .tx
  · subst hi
    exact txEffect_txSound (b := b.clearResults) ages p
  · refine txSound_of_not_busy (effectOf_not_busy hi p (b := b.clearResults) ?_) (by simpa using ages)
    rw [clearResults_ph, ha]
    rfl

/-- MBC and BUS keep what holds while a `TX` is in progress. -/
theorem agent_txSound {b c : Block} (h : b.Inv) (hframe : SlotsOnly b c)
    (hslot : ∀ j, AgentSlot (b.slot j) (c.slot j)) : c.TxSound := by
  obtain ⟨hslots, htx⟩ := h
  have hph : c.ph = b.ph := (congrArg Block.ph hframe :)
  have htgt : c.tgt = b.tgt := (congrArg Block.tgt hframe :)
  have hfa : c.fa = b.fa := (congrArg Block.fa hframe :)
  have hage : c.age = b.age := (congrArg Block.age hframe :)
  refine ⟨?frameLength, ?writeIntoEmpty, ?emptiedBySending, ?waitTarget, ?waitTargetLoaded, ?checkedOutranked,
    ?ages⟩ <;> simp only [hph, htgt, hfa, hage]
  case frameLength => exact htx.frameLength
  case writeIntoEmpty =>
    intro hp
    have hempty := htx.writeIntoEmpty hp
    rw [(hslot b.tgt).eq_of_empty hempty]
    exact hempty
  case emptiedBySending =>
    intro i hi
    refine (hslot i).held_or_sent (Bool.eq_false_iff.2 fun habrq => ?_) (htx.emptiedBySending i hi)
    obtain ⟨hwait, rfl⟩ := hslots.abortOnlyOfTarget i habrq
    simp [hwait, Phase.checking] at hi
  case waitTarget => exact fun hp => (hslot b.tgt).aborting_or_empty (htx.waitTarget hp)
  case waitTargetLoaded => exact fun hp => (hslot b.tgt).everLoaded (htx.waitTargetLoaded hp)
  case checkedOutranked =>
    intro i hi
    rw [(hslot i).content_eq]
    exact (htx.checkedOutranked i hi).imp_left ((hslot i).sent_stays (hslots.slot i))
  case ages => exact htx.ages

section Checks

variable {q n : Phase} {i : Slot} (h : Checks q i n)
include h

theorem checking_of_checks : q.checking = true ∧ n.checking = true := by cases h <;> exact ⟨rfl, rfl⟩

/-- After a check its slot is checked, and those that were before. -/
theorem checked_of_checks {j : Slot} (hj : n.checked j = true) : j = i ∨ q.checked j = true := by
  cases h <;> revert hj <;> cases j <;> decide

end Checks

/-- A check that passes has found its slot emptied, which was then sent, or strictly outranked (R152 to R154). -/
theorem checkSlot_txSound {b : Block} {i : Slot} {n : Phase} (hc : Checks b.ph i n) (h : b.TxSound) :
    (checkSlot i n b).TxSound := by
  obtain ⟨hchecking, hnext⟩ := checking_of_checks hc
  have hsent : ∀ j, (b.slot j).st ≠ .empty ∨ (b.slot j).txok = true := fun j => h.emptiedBySending j (.inl hchecking)
  unfold checkSlot
  split
  · exact txSound_of_not_busy rfl h.ages
  · rename_i hpass
    rw [checkSlot_test_iff, not_and_or, not_not, not_not] at hpass
    refine txSound_of_checking (h.frameLength (busy_of_checking hchecking)) h.ages hnext hsent fun j hj => ?_
    rcases checked_of_checks hc hj with rfl | hbefore
    · exact hpass.imp_left fun hempty => (hsent j).resolve_left (not_not.2 hempty)
    · exact h.checkedOutranked j hbefore

/-- `ABORT` leaves its target empty or with an abort requested, and every other slot as it was (R155). -/
theorem abortTarget_txSound {b : Block} (hp : b.ph = .abort) (h : b.Inv) : (abortTarget b).TxSound := by
  have hsent : ∀ i, (b.slot i).st ≠ .empty ∨ (b.slot i).txok = true :=
    fun i => h.tx.emptiedBySending i (.inl (by rw [hp]; rfl))
  have hcontent : ∀ i, ((abortTarget b).slot i).content = (b.slot i).content ∧
      ((abortTarget b).slot i).txok = (b.slot i).txok := fun i => by rw [slot_abortTarget]; split <;> simp
  refine ⟨fun _ => ?_, fun hw => ?_, fun i hi => ?_, fun _ => ?_, fun _ => ?_, fun i _ => ?_, ?_⟩
  · rw [abortTarget_fa]
    exact h.tx.frameLength (by rw [hp]; rfl)
  · rw [abortTarget_ph] at hw
    cases hw
  · simp only [abortTarget_ph, abortTarget_tgt, Phase.checking, Bool.false_eq_true, true_and, false_or] at hi
    rw [slot_abortTarget, if_neg (fun hc => hi hc.1)]
    exact hsent i
  · rw [abortTarget_tgt, slot_abortTarget]
    split
    · exact .inl rfl
    · rename_i hne
      exact .inr (by simpa using hne)
  · rw [abortTarget_tgt, slot_abortTarget]
    have hloaded : (b.slot b.tgt).everLoaded := (hsent b.tgt).imp_right (h.slots.sentIsComplete b.tgt)
    split <;> exact hloaded
  · obtain ⟨hc, htxok⟩ := hcontent i
    rw [hc, htxok, abortTarget_fa]
    exact h.tx.checkedOutranked i (by rw [hp]; cases i <;> rfl)
  · rw [abortTarget_age]
    exact h.tx.ages

theorem seqStep_txSound {b c : Block} (hc : b.seqStep = some c) (h : b.Inv) : c.TxSound := by
  cases seqMove_of_seqStep hc with
  | check hcheck => exact checkSlot_txSound hcheck h.tx
  | abort hp => exact abortTarget_txSound hp h
  | held => exact h.tx
  | resolved hp habrq =>
    have hempty : (b.slot b.tgt).st = .empty := (h.tx.waitTarget hp).resolve_left (by simp [habrq])
    exact txSound_of_write (by simpa using h.tx.frameLength (by rw [hp]; rfl)) (by simpa using h.tx.ages)
      (readBack_ph b) (by simpa using hempty)
  | write => exact txSound_of_not_busy rfl (youngest_acyclic h.tx.ages b.tgt)

theorem move_txSound {p : FreePick} {x : Input} {b c : Block} (m : Move p x b c) (h : b.Inv) : c.TxSound := by
  cases hx : x.isAgent with
  | true => exact agent_txSound h (slotsOnly_of_move m hx) (agentSlot_of_move m hx)
  | false =>
    cases m with
    | stay => exact h.tx
    | store ha => exact txSound_of_not_busy (by rw [storeReg_ph, ha]; rfl) (by simpa using h.tx.ages)
    | command ha => exact effectOf_txSound ha h.tx.ages p _
    | illegal => exact txSound_of_not_busy rfl h.tx.ages
    | seq hc => exact seqStep_txSound hc h
    | rst v => exact (resetWith_inv v).tx
    | ares | bstart | bdone => cases hx

theorem move_inv {p : FreePick} {x : Input} {b c : Block} (m : Move p x b c) (h : b.Inv) : c.Inv :=
  ⟨move_slotsSound m h.tx.frameLength h.slots, move_txSound m h⟩

/-- Settles O52: every move keeps the slot invariants (R43), and what holds while a `TX` is in progress phase
by phase. -/
theorem stepKeepsInvariant : Obligations.StepKeepsInvariant :=
  fun _ _ => step_keeps_of_move fun _ _ _ _ => move_inv

/-! ### The evicted frame is strictly outranked -/

theorem effectOf_evicted (p : FreePick) (i : Instr) (b : Block) :
    (effectOf p i b).rs.evicted = b.rs.evicted := by
  cases i with
  | tx => simp only [effectOf, txEffect]; split <;> rfl
  | mkstd => simp only [effectOf, mkstdEffect]; split <;> rfl
  | mkext => simp only [effectOf, mkextEffect]; split <;> rfl
  | mkdata x => simp only [effectOf, mkdataEffect]; split <;> simp
  | mkrmt x => simp only [effectOf, mkrmtEffect]; split <;> simp
  | _ => rfl

theorem checkSlot_evicted (i : Slot) (n : Phase) (b : Block) : (checkSlot i n b).rs.evicted = b.rs.evicted := by
  unfold checkSlot
  split <;> rfl

theorem abortTarget_rs (b : Block) : (abortTarget b).rs = b.rs := by
  unfold abortTarget
  dsimp only
  split <;> simp

/-- The one move that sets `EVICTED` reads back an aborted frame (R156). -/
theorem readBack_of_evicted {p : FreePick} {x : Input} {b c : Block} (m : Move p x b c) (hb : b.rs.evicted = false)
    (hc : c.rs.evicted = true) : b.ph = .wait ∧ (b.slot b.tgt).txok = false ∧ c = readBack b := by
  have hne : c.rs.evicted ≠ b.rs.evicted := by rw [hb, hc]; simp
  cases hx : x.isAgent with
  | true => exact absurd (congrArg (·.rs.evicted) (slotsOnly_of_move m hx) :) hne
  | false =>
    cases m with
    | stay => exact absurd rfl hne
    | store => exact absurd (congrArg Rstat.evicted (storeReg_rs ..)) hne
    | command => rw [effectOf_evicted] at hc; cases hc
    | illegal | rst => cases hc
    | ares | bstart | bdone => cases hx
    | seq hs =>
      cases seqMove_of_seqStep hs with
      | check => exact absurd (checkSlot_evicted ..) hne
      | abort => exact absurd (congrArg Rstat.evicted (abortTarget_rs b)) hne
      | held => exact absurd rfl hne
      | write => exact absurd rfl hne
      | resolved hp =>
        refine ⟨hp, Bool.eq_false_iff.2 fun hsent => hne ?_, rfl⟩
        rw [readBack_of_sent hsent]

/-- The frame read back from a target that was not sent is one that the new frame strictly outranks (R170). -/
theorem outranked_readBack {b : Block} (h : b.Inv) (hp : b.ph = .wait) (htxok : (b.slot b.tgt).txok = false) :
    prioCmp (readBack b).fa.id (readBack b).ev.id = .higher := by
  have hchecked := h.tx.checkedOutranked b.tgt (by rw [hp]; cases b.tgt <;> rfl)
  rw [readBack_of_aborted htxok]
  exact hchecked.resolve_left (by simp [htxok])

theorem outranked_of_step {s t : State} (hinv : s.blk.Inv) (h : step s = .next t) (hs : s.blk.rs.evicted = false)
    (ht : t.blk.rs.evicted = true) : prioCmp t.blk.fa.id t.blk.ev.id = .higher ∧ t.blk.fa = s.blk.fa := by
  rcases step_move h with ⟨-, rfl⟩ | ⟨x, rest, -, m⟩
  · exact absurd (hs.symm.trans ht) (by simp)
  · obtain ⟨hp, htxok, hc⟩ := readBack_of_evicted m hs ht
    rw [hc]
    exact ⟨outranked_readBack hinv hp htxok, readBack_fa s.blk⟩

/-- Settles O56: only a read-back sets `EVICTED`; its target was checked, and was not sent. -/
theorem evictedFrameIsStrictlyOutranked : Obligations.EvictedFrameIsStrictlyOutranked := by
  refine ⟨fun t u hinv h => outranked_of_step hinv h, fun v s t u hs hrun h => ?_⟩
  have hinv : t.blk.Inv :=
    runWhile_keeps (I := fun s => s.blk.Inv) (fun _ _ => step_keeps_of_move fun _ _ _ _ => move_inv) hrun
      (hs ▸ resetWith_inv v)
  exact outranked_of_step hinv h

/-! ### A halted block -/

/-- What a halted block keeps without a reset: all but its slots, whose content stays and which only empty (R195). -/
structure HaltKept (b c : Block) : Prop where
  frame : SlotsOnly b c
  content : ∀ i, (c.slot i).content = (b.slot i).content
  empty : ∀ i, (b.slot i).st = .empty → (c.slot i).st = .empty

theorem haltKept_refl (b : Block) : HaltKept b b := ⟨slotsOnly_refl b, fun _ => rfl, fun _ h => h⟩

theorem haltKept_trans {b c d : Block} (hbc : HaltKept b c) (hcd : HaltKept c d) : HaltKept b d :=
  ⟨slotsOnly_trans hbc.frame hcd.frame, fun i => (hcd.content i).trans (hbc.content i),
    fun i h => hcd.empty i (hbc.empty i h)⟩

/-- Of a halted block only MBC and BUS change anything (20_memory.md R68, 42_mailbox.md R160). -/
theorem move_haltKept {p : FreePick} {x : Input} {b c : Block} (m : Move p x b c) (hx : ∀ v, x ≠ .rst v)
    (hb : b.ph = .halt) : HaltKept b c := by
  have hna : ¬b.accepting := fun ha => Phase.noConfusion (ha.symm.trans hb)
  cases hagent : x.isAgent with
  | true =>
    have hslot := agentSlot_of_move m hagent
    exact ⟨slotsOnly_of_move m hagent, fun i => (hslot i).content_eq,
      fun i hempty => by rw [(hslot i).eq_of_empty hempty, hempty]⟩
  | false =>
    cases m with
    | stay => exact haltKept_refl b
    | store ha | command ha | illegal ha => exact absurd ha hna
    | seq h => exact absurd ((seqStep_eq_none_iff b).2 (.inr hb)) (by simp [h])
    | ares | bstart | bdone => cases hagent
    | rst v => exact absurd rfl (hx v)

theorem haltKept_of_run {s t : State} (h : RunWhile State.noReset s t) (hs : s.blk.ph = .halt) :
    HaltKept s.blk t.blk := by
  induction h with
  | refl s => exact haltKept_refl s.blk
  | @cons s t u hno hstep _ ih =>
    have hst : HaltKept s.blk t.blk := by
      rcases step_move hstep with ⟨-, rfl⟩ | ⟨x, rest, hi, m⟩
      · exact haltKept_refl t.blk
      · exact move_haltKept m (fun v hv => hno v rest (hv ▸ hi)) hs
    exact haltKept_trans hst (ih ((congrArg Block.ph hst.frame :).trans hs))

/-- Settles O48: each step keeps what a halted block keeps, which is transitive along the run. -/
theorem haltEndsOnlyByReset : Obligations.HaltEndsOnlyByReset := by
  intro s t hs hrun
  obtain ⟨hframe, hcontent, hempty⟩ := haltKept_of_run hrun hs
  have hrs : t.blk.rs = s.blk.rs := (congrArg Block.rs hframe :)
  have hph : t.blk.ph = s.blk.ph := (congrArg Block.ph hframe :)
  exact ⟨hph.trans hs, hrs, rstatWord_congr hrs hph, (congrArg Block.opa hframe :), (congrArg Block.opb hframe :),
    (congrArg Block.fa hframe :), (congrArg Block.fb hframe :), (congrArg Block.res hframe :),
    (congrArg Block.ev hframe :), (congrArg Block.age hframe :), fun i => ⟨hcontent i, hempty i⟩⟩

end Sys2Proof.Machine

/-! SUPPORT. Proofs about the canonical words, the construction of identifiers and the equality of frames
(30_encoding.md R81, R82, 40_identifier.md R115, 41_frame.md R135, R136). -/

namespace Sys2Proof.Machine

/-! ### Canonical words as numbers -/

/-- The word of an identifier of given kind, number and remote flag, as a number (R81). -/
def idWordNat (extended : Bool) (n : Nat) (r : Bool) : Nat :=
  if extended then n * 8 + 4 + r.toNat * 2 else n * 2 ^ 21 + r.toNat * 2

theorem ignoredBitsClear_iff (w : Word) :
    IgnoredBitsClear w ↔ w.toNat % 2 = 0 ∧ (w.toNat / 4 % 2 = 0 → w.toNat / 8 % 2 ^ 18 = 0) := by
  have hbit : ∀ k, w.getLsbD k = false ↔ w.toNat / 2 ^ k % 2 = 0 := fun k => by
    rw [← toNat_getLsbD]
    cases w.getLsbD k <;> simp
  have hmid : w.extractLsb' 3 18 = 0#18 ↔ w.toNat / 8 % 2 ^ 18 = 0 := by
    rw [← BitVec.toNat_inj, BitVec.extractLsb'_toNat, Nat.shiftRight_eq_div_pow]
    rfl
  rw [IgnoredBitsClear, hbit, hbit, hmid, Nat.pow_zero, Nat.div_one]
  rfl

theorem isCanonical_iff_ignoredBitsClear (w : Word) : isCanonical w = true ↔ IgnoredBitsClear w :=
  ⟨fun h => canon_of_isCanonical h ▸ ignoredBitsClear_canon w, isCanonical_of_ignoredBitsClear⟩

/-- A canonical word is the word of the identifier it decodes to. -/
theorem toNat_of_isCanonical {w : Word} (h : isCanonical w = true) :
    w.toNat = idWordNat (dec w).ide (dec w).id.toNat (dec w).rtr := by
  rw [toNat_of_ignoredBitsClear ((isCanonical_iff_ignoredBitsClear w).1 h), idWordNat]
  cases (dec w).ide <;> simp

theorem isCanonical_of_toNat {w : Word} {k : Bool} {n : Nat} {r : Bool} (h : w.toNat = idWordNat k n r) :
    isCanonical w = true := by
  rw [isCanonical_iff_ignoredBitsClear, ignoredBitsClear_iff, h, idWordNat]
  have hr := Bool.toNat_le r
  cases k <;> simp <;> omega

theorem idWordNat_injective {k k' r r' : Bool} {n n' : Nat} (h : idWordNat k n r = idWordNat k' n' r') :
    k = k' ∧ n = n' ∧ r = r' := by
  have hr := Bool.toNat_le r
  have hr' := Bool.toNat_le r'
  rw [← bool_toNat_eq_iff (x := r)]
  cases k <;> cases k' <;> simp [idWordNat] at h ⊢ <;> omega

theorem standardMask_bits : ∀ k < 32,
    (0xFFE00002#32).getLsbD k = (!(k == 0) && !(k == 2) && !decide (3 ≤ k ∧ k ≤ 20)) := by decide

theorem extendedMask_bits : ∀ k < 32, (0xFFFFFFFE#32).getLsbD k = !(k == 0) := by decide

/-- The bits `canon` keeps (R82). -/
theorem getLsbD_canon (w : Word) (k : Nat) :
    (canon w).getLsbD k = (w.getLsbD k && !(k == 0) && !(!w.getLsbD 2 && decide (3 ≤ k ∧ k ≤ 20))) := by
  rcases Nat.lt_or_ge k 32 with hk | hk
  · cases h : w.getLsbD 2
    · rw [canon_of_standard h, BitVec.getLsbD_and, standardMask_bits k hk]
      by_cases h2 : k = 2
      · rw [h2, h, Bool.false_and, Bool.false_and, Bool.false_and]
      · simp only [beq_eq_false_iff_ne.2 h2, Bool.not_false, Bool.and_true, Bool.true_and, Bool.and_assoc]
    · rw [canon_of_extended h, BitVec.getLsbD_and, extendedMask_bits k hk]
      simp
  · rw [BitVec.getLsbD_of_ge _ _ hk, BitVec.getLsbD_of_ge _ _ hk]
    simp

/-- Settles O5: a canonical word is the word of what it decodes to, and the fields of such a word do not overlap. -/
theorem canonicalWordsAreEncodings : Obligations.CanonicalWordsAreEncodings := by
  refine ⟨fun w => ⟨fun h => ?_, fun ⟨k, n, r, _, hword⟩ => isCanonical_of_toNat (k := k) (n := n) (r := r) hword⟩,
    fun k n r k' n' r' _ _ => idWordNat_injective, canon_canon, getLsbD_canon⟩
  exact ⟨(dec w).ide, (dec w).id.toNat, (dec w).rtr, toNat_dec_id_le w, toNat_of_isCanonical h⟩

/-! ### Building an identifier and decoding it -/

theorem dec_standardId {n : Word} (h : n.toNat ≤ 0x7FF) :
    (dec (standardId n)).id = n ∧ (dec (standardId n)).ide = false ∧ (dec (standardId n)).rtr = false := by
  have hide : (standardId n).getLsbD 2 = false := getLsbD_standardId (by decide) n
  refine ⟨BitVec.eq_of_toNat_eq ?_, hide, getLsbD_standardId (by decide) n⟩
  rw [toNat_dec_id, hide, toNat_standardId h]
  simp

theorem dec_extendedId {n : Word} (h : n.toNat ≤ 0x1FFFFFFF) :
    (dec (extendedId n)).id = n ∧ (dec (extendedId n)).ide = true ∧ (dec (extendedId n)).rtr = false := by
  have hide : (extendedId n).getLsbD 2 = true := getLsbD_extendedId (by decide) n
  refine ⟨BitVec.eq_of_toNat_eq ?_, hide, getLsbD_extendedId (by decide) n⟩
  rw [toNat_dec_id, hide, toNat_extendedId h, if_pos rfl]
  omega

/-- The script lines that load `OPA` and issue a command run the command on the loaded block (30_encoding.md R92). -/
theorem playLines_loadOpa {s : State} (ha : s.blk.accepting) (v : Word) {i : Instr} (hi : i.isCommand = true) :
    playLines [.wr .opa v, .op i] s =
      .next { s with blk := effectOf s.pick i { s.blk with opa := v, rs := .cleared } } := by
  have hload : runInput (Line.wr .opa v).input s = .next { s with blk := { s.blk with opa := v } } := by
    rw [runInput_wr rfl, hostWrite_of_ne_cmd (by simp), State.onBlock, writeReg_of_accepting ha]
    rfl
  have hexec : runInput (Line.op i).input { s with blk := { s.blk with opa := v } } =
      .next { s with blk := effectOf s.pick i { s.blk with opa := v, rs := .cleared } } := by
    rw [runInput_op (decode_encode i), exec_of_accepting (s := { s with blk := { s.blk with opa := v } }) hi ha]
    rfl
  simp only [playLines, List.map, play, hload, hexec, andThen_next]

theorem playLines_mkstd {s : State} (ha : s.blk.accepting) {v : Word} (h : v.toNat ≤ 0x7FF) :
    ∃ t, playLines (pseudoMkstd v) s = .next t ∧ t.blk.accepting ∧ t.blk.res = standardId v := by
  refine ⟨_, playLines_loadOpa ha v rfl, ?_⟩
  dsimp only
  rw [effectOf, mkstdEffect_of_le (b := { s.blk with opa := v, rs := .cleared }) h]
  exact ⟨ha, rfl⟩

theorem playLines_mkext {s : State} (ha : s.blk.accepting) {v : Word} (h : v.toNat ≤ 0x1FFFFFFF) :
    ∃ t, playLines (pseudoMkext v) s = .next t ∧ t.blk.accepting ∧ t.blk.res = extendedId v := by
  refine ⟨_, playLines_loadOpa ha v rfl, ?_⟩
  dsimp only
  rw [effectOf, mkextEffect_of_le (b := { s.blk with opa := v, rs := .cleared }) h]
  exact ⟨ha, rfl⟩

/-- `DECID` of the word a script has left in `RES` reads its decoded fields (40_identifier.md R115). -/
theorem playLines_build_decid {build : List Line} {s : State} {w v : Word} {e : Bool}
    (hbuild : ∃ t, playLines build s = .next t ∧ t.blk.accepting ∧ t.blk.res = w)
    (hdec : (dec w).id = v ∧ (dec w).ide = e ∧ (dec w).rtr = false) :
    ∃ t u : State, playLines build s = .next t ∧ playLines (pseudoDecid t.blk.res) t = .next u ∧ u.blk.res = v ∧
      u.blk.rs.ext = e ∧ u.blk.rs.rtr = false := by
  obtain ⟨t, hplay, hacc, rfl⟩ := hbuild
  exact ⟨t, _, hplay, playLines_loadOpa hacc t.blk.res rfl, hdec⟩

/-- Settles O15: each script leaves the word of the number in `RES`, and `dec` reads the number back. -/
theorem constructThenDecode : Obligations.ConstructThenDecode := fun _ _ ha =>
  ⟨fun hle => playLines_build_decid (playLines_mkstd ha hle) (dec_standardId hle),
    fun hle => playLines_build_decid (playLines_mkext ha hle) (dec_extendedId hle)⟩

/-! ### Equality of frames -/

/-- A data register is its four bytes (R83). -/
theorem eq_of_bytes {x y : Word} (h : ∀ k, k < 4 → x.extractLsb' (8 * k) 8 = y.extractLsb' (8 * k) 8) : x = y := by
  refine BitVec.eq_of_getLsbD_eq fun j hj => ?_
  have hbit : ∀ z : Word, z.getLsbD j = (z.extractLsb' (8 * (j / 8)) 8).getLsbD (j % 8) := fun z => by
    rw [BitVec.getLsbD_extractLsb', Nat.div_add_mod]
    simp [Nat.mod_lt]
  rw [hbit x, hbit y, h (j / 8) (by omega)]

/-- A frame is its identifier, its length and its eight bytes (R83). -/
theorem Frame.eq_of_bytes {a b : Frame} (hid : a.id = b.id) (hdlc : a.dlc = b.dlc)
    (h : ∀ k, k < 8 → a.byte k = b.byte k) : a = b := by
  refine (Frame.mk.injEq ..).mpr ⟨hid, hdlc, Machine.eq_of_bytes fun k hk => ?_, Machine.eq_of_bytes fun k hk => ?_⟩
  · have hlow := h k (by omega)
    rwa [byte_of_lt hk, byte_of_lt hk] at hlow
  · have hhigh := h (4 + k) (by omega)
    rwa [byte_of_ge (by omega), byte_of_ge (by omega), Nat.add_sub_cancel_left] at hhigh

theorem remote_of_canon_eq {v w : Word} (h : canon v = canon w) : v.getLsbD 1 = w.getLsbD 1 :=
  congrArg LogicalId.rtr (canon_eq_canon_iff.1 h)

theorem feq_refl (a : Frame) : feq a a = true := (frameEqualityMeaning a a).2 ⟨rfl, rfl, fun _ _ _ => rfl⟩

theorem feq_symm {a b : Frame} (h : feq a b = true) : feq b a = true := by
  obtain ⟨hid, hdlc, hbytes⟩ := (frameEqualityMeaning a b).1 h
  refine (frameEqualityMeaning b a).2 ⟨hid.symm, hdlc.symm, fun hdata k hk => (hbytes ?_ k ?_).symm⟩
  · rw [remote_of_canon_eq hid, hdata]
  · rwa [hdlc]

theorem feq_trans {a b c : Frame} (hab : feq a b = true) (hbc : feq b c = true) : feq a c = true := by
  obtain ⟨hid, hdlc, hbytes⟩ := (frameEqualityMeaning a b).1 hab
  obtain ⟨hid', hdlc', hbytes'⟩ := (frameEqualityMeaning b c).1 hbc
  refine (frameEqualityMeaning a c).2 ⟨hid.trans hid', hdlc.trans hdlc', fun hdata k hk => ?_⟩
  exact (hbytes hdata k hk).trans (hbytes' (by rw [← remote_of_canon_eq hid, hdata]) k (by rwa [← hdlc]))

theorem prioCmp_of_feq {a b : Frame} (h : feq a b = true) : prioCmp a.id b.id = .equal :=
  (prioCmp_eq_equal_iff_canon _ _).2 ((frameEqualityMeaning a b).1 h).1

/-- Beyond its length a well-formed data frame has zero bytes (R131). -/
theorem byte_of_wellFormed {f : Frame} (hwf : f.wellFormed = true) (hdata : f.isRemote = false) {k : Nat} (hk : k < 8)
    (hlen : f.dlc.toNat ≤ k) : f.byte k = 0 := by
  obtain ⟨-, -, hpad⟩ := (Frame.wellFormed_iff f).1 hwf
  exact (hpad.resolve_left (by simp [hdata]) k hk).resolve_left hlen.not_gt

/-- Well-formed data frames have no bits that `feq` does not compare but zero bytes (R135). -/
theorem eq_of_feq {a b : Frame} (ha : a.wellFormed = true) (hb : b.wellFormed = true) (hdata : a.isRemote = false)
    (h : feq a b = true) : a = b := by
  obtain ⟨hid, hdlc, hbytes⟩ := (frameEqualityMeaning a b).1 h
  obtain ⟨-, hcanonA, -⟩ := (Frame.wellFormed_iff a).1 ha
  obtain ⟨-, hcanonB, -⟩ := (Frame.wellFormed_iff b).1 hb
  have hdataB : b.isRemote = false := (remote_of_canon_eq hid).symm.trans hdata
  rw [canon_of_isCanonical hcanonA, canon_of_isCanonical hcanonB] at hid
  refine Frame.eq_of_bytes hid hdlc fun k hk => ?_
  rcases Nat.lt_or_ge k a.dlc.toNat with hlt | hge
  · exact hbytes hdata k (by omega)
  · rw [byte_of_wellFormed ha hdata hk hge, byte_of_wellFormed hb hdataB hk (hdlc ▸ hge)]

/-- Settles O20: `feq` compares three things by equality, the last only for a data frame, and equal identifiers agree on
which frame is one. -/
theorem frameEqualityIsAnEquivalence : Obligations.FrameEqualityIsAnEquivalence :=
  ⟨feq_refl, fun _ _ => feq_symm, fun _ _ _ => feq_trans, fun _ _ => prioCmp_of_feq,
    fun a _ ha hb hdata => ⟨eq_of_feq ha hb hdata, fun h => h ▸ feq_refl a⟩⟩

end Sys2Proof.Machine

/-! SUPPORT. Proofs about what the block shows: the extended order, the two status words, the register map and the
bus-engine port (10_state.md R35 to R44, 20_memory.md R61). -/

namespace Sys2Proof.Machine

/-! ### The extended order -/

theorem outranks_asymm {b : Block} (ha : b.age.acyclic) {i j : Slot} (h : b.outranks i j = true) :
    b.outranks j i = false := by
  refine Bool.eq_false_iff.2 fun hback => ?_
  have hself := outranks_trans ha h hback
  rw [outranks_irrefl] at hself
  cases hself

/-- Settles O36: the order is by key and then by age, and the age bits in order make the ages a strict order. -/
theorem extendedOrderIsStrictTotal : Obligations.ExtendedOrderIsStrictTotal := fun b ha =>
  ⟨outranks_irrefl b, fun _ _ hne => ⟨outranks_asymm ha, fun h => (outranks_total b hne).resolve_right (by simp [h])⟩,
    fun _ _ _ => outranks_trans ha⟩

/-! ### RSTAT -/

theorem rstatWord_flags (b : Block) :
    b.rstatWord.getLsbD 2 = b.rs.err ∧ b.rstatWord.getLsbD 3 = b.rs.retry ∧ b.rstatWord.getLsbD 4 = b.rs.evicted ∧
    b.rstatWord.getLsbD 7 = b.rs.eq ∧ b.rstatWord.getLsbD 8 = b.rs.idlef ∧ b.rstatWord.getLsbD 9 = b.rs.ext ∧
    b.rstatWord.getLsbD 10 = b.rs.rtr ∧ b.rstatWord.getLsbD 11 = false := by
  simp only [Block.rstatWord, BitVec.getLsbD_append]
  simp

/-- The fields of more than one bit are parts the word is appended from (R39). -/
theorem rstatWord_fields (b : Block) :
    b.rstatWord.extractLsb' 5 2 = b.rs.ord.code ∧ b.rstatWord.extractLsb' 12 2 = b.rs.mbx.code ∧
    b.rstatWord.extractLsb' 14 2 = 0 ∧ b.rstatWord.extractLsb' 16 4 = b.rs.ecode.code ∧
    b.rstatWord.extractLsb' 23 9 = 0 := by
  unfold Block.rstatWord
  refine ⟨?_, ?_, ?_, ?_, ?top⟩
  all_goals repeat rw [BitVec.extractLsb'_append_eq_of_le (by decide)]
  case top => exact BitVec.extractLsb'_eq_self
  all_goals exact BitVec.extractLsb'_append_eq_right

/-- The error codes as numbers (60_exceptions.md R191). -/
theorem errorCode_code : ∀ x ∈ ([(.none, 0), (.illCmd, 1), (.rangeStd, 2), (.rangeExt, 3), (.lenData, 4),
    (.lenRmt, 5)] : List (ErrorCode × BitVec 4)), x.1.code = x.2 := by decide

/-- The phases as numbers (10_state.md R40). -/
theorem phase_code : ∀ x ∈ ([(.idle, 0), (.chk0, 1), (.chk1, 2), (.chk2, 3), (.abort, 4), (.wait, 5), (.write, 6),
    (.halt, 7)] : List (Phase × BitVec 3)), x.1.code = x.2 := by decide

/-! ### STATUS -/

/-- The fields of more than one bit are parts the word is appended from (R38). -/
theorem statusWord_fields (p : FreePick) (b : Block) :
    (b.statusWord p).extractLsb' 0 2 = (b.code p).code ∧ (b.statusWord p).extractLsb' 2 2 = 0 ∧
    ((b.statusWord p).extractLsb' 4 3 = vec3 fun i => (b.slot i).isEmpty) ∧
    ((b.statusWord p).extractLsb' 8 3 = vec3 fun i => (b.slot i).st == .inflight) ∧
    ((b.statusWord p).extractLsb' 12 3 = vec3 fun i => (b.slot i).abrq) ∧
    ((b.statusWord p).extractLsb' 16 3 = vec3 fun i => (b.slot i).rqcp) ∧
    ((b.statusWord p).extractLsb' 20 3 = vec3 fun i => (b.slot i).txok) ∧ (b.statusWord p).extractLsb' 27 5 = 0 := by
  unfold Block.statusWord
  refine ⟨?_, ?_, ?_, ?_, ?_, ?_, ?_, ?top⟩
  all_goals repeat rw [BitVec.extractLsb'_append_eq_of_le (by decide)]
  case top => exact BitVec.extractLsb'_eq_self
  all_goals exact BitVec.extractLsb'_append_eq_right

theorem statusWord_reservedBits (p : FreePick) (b : Block) :
    (b.statusWord p).getLsbD 7 = false ∧ (b.statusWord p).getLsbD 11 = false ∧
    (b.statusWord p).getLsbD 15 = false ∧ (b.statusWord p).getLsbD 19 = false ∧
    (b.statusWord p).getLsbD 23 = false := by
  simp only [Block.statusWord, BitVec.getLsbD_append]
  simp

theorem statusWord_selIdx_getD (p : FreePick) (b : Block) :
    (b.statusWord p).extractLsb' 24 2 = (b.sel.map Slot.code).getD 0 := by
  cases h : b.sel with
  | some i => exact statusWord_selIdx p h
  | none =>
    unfold Block.statusWord
    repeat rw [BitVec.extractLsb'_append_eq_of_le (by decide)]
    rw [h]
    rfl

theorem slotCode_toNat_lt (i : Slot) : i.code.toNat < 3 := by cases i <;> decide

theorem getLsbD_vec3 (f : Slot → Bool) (i : Slot) : (vec3 f).getLsbD i.code.toNat = f i := by
  unfold vec3
  cases i <;> rw [BitVec.getLsbD_append, BitVec.getLsbD_append] <;> simp [Slot.code]

/-- A field of one bit for each slot is read at the slot's place. -/
theorem getLsbD_of_vec3 {w : Word} {k : Nat} {f : Slot → Bool} (h : w.extractLsb' k 3 = vec3 f) (i : Slot) :
    w.getLsbD (k + i.code.toNat) = f i := by
  rw [← getLsbD_vec3 f i, ← h]
  simp [slotCode_toNat_lt]

/-- Settles O38: each field of the two words is one of the parts they are appended from. -/
theorem statusWordLayouts : Obligations.StatusWordLayouts := by
  intro p b
  obtain ⟨herr, hretry, hevicted, heq, hidlef, hext, hrtr, hbit11⟩ := rstatWord_flags b
  obtain ⟨hord, hmbx, hbits14, hecode, hbits23⟩ := rstatWord_fields b
  obtain ⟨hcode, hbits2, htme, hinflight, habrq, hrqcp, htxok, hbits27⟩ := statusWord_fields p b
  obtain ⟨hbit7, hbit11', hbit15, hbit19, hbit23⟩ := statusWord_reservedBits p b
  refine ⟨⟨rstatWord_busy b, rstatWord_fatal_iff b, herr, hretry, hevicted, ?_, ?_, ?_, heq, hidlef, hext, hrtr, hbit11,
      hmbx, hbits14, fun e n hmem he => ?_, fun q n hmem hq => ?_, hbits23⟩, ⟨rfl, rfl, rfl⟩,
    hcode, hbits2, hbit7, hbit11', hbit15, hbit19, hbit23, hbits27, by rw [statusWord_selValid],
    statusWord_selIdx_getD p b, fun i => ⟨?_, ?_, getLsbD_of_vec3 habrq i, getLsbD_of_vec3 hrqcp i,
      getLsbD_of_vec3 htxok i⟩⟩
  · exact fun h => by rw [hord, h]; rfl
  · exact fun h => by rw [hord, h]; rfl
  · exact fun h => by rw [hord, h]; rfl
  · rw [hecode, he]
    exact errorCode_code _ hmem
  · rw [rstatWord_ph, hq]
    exact phase_code _ hmem
  · rw [getLsbD_of_vec3 htme, Mailbox.isEmpty, beq_iff_eq]
  · rw [getLsbD_of_vec3 hinflight, beq_iff_eq]

/-! ### The register map -/

/-- A slot's `ID` word holds the identifier's bits 31:1, and `TXRQ` in bit 0 (R21). -/
theorem idRead_fields (m : Mailbox) :
    m.idRead.extractLsb' 1 31 = m.content.id ∧ (m.idRead.getLsbD 0 = true ↔ m.st ≠ .empty) :=
  ⟨BitVec.extractLsb'_append_eq_left, by rw [getLsbD_idRead_zero, Mailbox.txrq, bne_iff_ne]⟩

/-- Settles O42: each offset is looked up in the map. -/
theorem registerMap : Obligations.RegisterMap := by
  intro p b
  refine ⟨rfl, rfl, rfl, rfl, rfl, rfl, ?_, fun i => ?_⟩
  · rintro k f (⟨rfl, rfl⟩ | ⟨rfl, rfl⟩ | ⟨rfl, rfl⟩) <;> exact ⟨rfl, rfl, rfl, rfl⟩
  · cases i <;> exact ⟨⟨_, rfl, idRead_fields _⟩, rfl, rfl, rfl⟩

/-! ### The bus-engine port -/

/-- Settles O39: a slot is selected only with none in flight, and the frame shown is that of the one or of the other. -/
theorem busPortOutputs : Obligations.BusPortOutputs := by
  refine fun b => ⟨Iff.rfl, fun i hi => ⟨?_, ?_⟩, fun i hi hone => ?_⟩
  · simp [Block.busPort, hi]
  · simp [Block.busPort, hi, (inflight_eq_none_iff b).2 (not_inflight_of_sel hi)]
  · simp [Block.busPort, inflight_eq_some hi hone]

end Sys2Proof.Machine

/-! SUPPORT. Proofs about what comes to an end: a `TX`, in at most six SEQ steps (42_mailbox.md R159,
70_reset_and_hazards.md R237), and the sending of all slots, in the extended order (42_mailbox.md R171). -/

namespace Sys2Proof.Machine

/-! ### The SEQ steps left of a `TX` -/

theorem stepsLeft_le_six (p : Phase) : p.stepsLeft ≤ 6 := by cases p <;> decide

theorem stepsLeft_eq_zero_iff (p : Phase) : p.stepsLeft = 0 ↔ p = .idle ∨ p = .halt := by cases p <;> decide

theorem stepsLeft_of_checks {q n : Phase} {i : Slot} (h : Checks q i n) : n.stepsLeft < q.stepsLeft := by
  cases h <;> decide

theorem held_iff (b : Block) : b.held = true ↔ b.ph = .wait ∧ (b.slot b.tgt).abrq = true := by
  rw [Block.held, Bool.and_eq_true, beq_iff_eq]

theorem complete_iff (b : Block) : b.complete = true ↔ b.ph = .idle ∨ b.ph = .halt := by
  rw [Block.complete, Bool.or_eq_true, beq_iff_eq, beq_iff_eq]

/-- A SEQ step is held, and then changes nothing, or leaves fewer steps (R159). -/
theorem seqStep_held_or_shorter {b c : Block} (h : b.seqStep = some c) :
    (b.held = true ∧ c = b) ∨ c.ph.stepsLeft < b.ph.stepsLeft := by
  cases seqMove_of_seqStep h with
  | check hc =>
    right
    have hlt := stepsLeft_of_checks hc
    unfold checkSlot
    split
    · exact Nat.zero_lt_of_lt hlt
    · exact hlt
  | abort hp => exact .inr (by rw [abortTarget_ph, hp]; decide)
  | held hp habrq => exact .inl ⟨(held_iff b).2 ⟨hp, habrq⟩, rfl⟩
  | resolved hp => exact .inr (by rw [readBack_ph, hp]; decide)
  | write hp => exact .inr (by rw [hp]; exact Nat.zero_lt_one)

/-- While a `TX` is in progress no step of any agent lengthens what is left of it. -/
theorem move_stepsLeft {p : FreePick} {x : Input} {b c : Block} (m : Move p x b c) (hbusy : b.ph.busy = true) :
    c.ph.stepsLeft ≤ b.ph.stepsLeft := by
  have hna : ¬b.accepting := fun ha => by rw [show b.ph = .idle from ha] at hbusy; cases hbusy
  cases hx : x.isAgent with
  | true => rw [(congrArg Block.ph (slotsOnly_of_move m hx) :)]
  | false =>
    cases m with
    | stay => exact le_rfl
    | store ha | command ha | illegal ha => exact absurd ha hna
    | seq h =>
      rcases seqStep_held_or_shorter h with ⟨-, rfl⟩ | hlt
      · exact le_rfl
      · exact hlt.le
    | rst => exact Nat.zero_le _
    | ares | bstart | bdone => cases hx

/-! ### RUN -/

theorem between_isAgent (y : Between) : y.input.isAgent = true := by cases y <;> rfl

/-- The steps of MBC and BUS in one place of a schedule change nothing but the slots. -/
theorem slotsOnly_of_playBetween {l : List Between} {s t : State} (h : playBetween l s = .next t) :
    SlotsOnly s.blk t.blk := by
  induction l generalizing s with
  | nil =>
    cases h
    exact slotsOnly_refl _
  | cons y l ih =>
    obtain ⟨u, hy, hl⟩ := playBetween_cons_next.1 h
    exact slotsOnly_trans (slotsOnly_of_move (runInput_move hy) (between_isAgent y)) (ih hl)

theorem seqAgent_of_some {s : State} {c : Block} (h : s.blk.seqStep = some c) :
    seqAgent s = .next { s with blk := c } := by
  simp only [seqAgent, h]
  rfl

theorem seqStep_of_seqAgent {s t : State} (h : seqAgent s = .next t) : s.blk.seqStep = some t.blk := by
  cases hc : s.blk.seqStep with
  | none =>
    rw [seqAgent_of_none hc] at h
    cases h
  | some c =>
    rw [seqAgent_of_some hc] at h
    cases h
    rfl

/-- With as many SEQ steps as are left, `RUN` ends with the `TX` ended or held (R92, R237). -/
theorem runSteps_ends {n : Nat} {between : List (List Between)} {s t : State} (hleft : s.blk.ph.stepsLeft ≤ n)
    (hhalt : s.blk.ph ≠ .halt) (h : runSteps n between s = .next t) : t.blk.ph = .idle ∨ t.blk.held = true := by
  induction n generalizing between s with
  | zero =>
    cases h
    exact .inl (((stepsLeft_eq_zero_iff _).1 (Nat.le_zero.1 hleft)).resolve_right hhalt)
  | succ n ih =>
    simp only [runSteps] at h
    split at h
    · rename_i hcomplete
      cases h
      exact .inl (((complete_iff _).1 hcomplete).resolve_right hhalt)
    · obtain ⟨u, hplay, h⟩ := andThen_eq_next.1 h
      have hph : u.blk.ph = s.blk.ph := (congrArg Block.ph (slotsOnly_of_playBetween hplay) :)
      split at h
      · rename_i hend
        cases h
        rw [Bool.or_eq_true, complete_iff, hph] at hend
        rw [hph]
        exact hend.imp_left fun hp => hp.resolve_right hhalt
      · rename_i hgoes
        obtain ⟨v, hseq, h⟩ := andThen_eq_next.1 h
        have hstep := seqStep_of_seqAgent hseq
        refine ih ?_ (seqStep_ph_ne_halt hstep) h
        rcases seqStep_held_or_shorter hstep with ⟨hheld, -⟩ | hlt
        · simp [hheld] at hgoes
        · rw [hph] at hlt
          omega

/-- With no step between, `RUN` asks for a SEQ step only where there is one. -/
theorem runSteps_nil_next (n : Nat) (s : State) : ∃ t, runSteps n [] s = .next t := by
  induction n generalizing s with
  | zero => exact ⟨s, rfl⟩
  | succ n ih =>
    simp only [runSteps, List.headD_nil, List.tail_nil, playBetween_nil, andThen_next]
    split
    · exact ⟨s, rfl⟩
    · rename_i hcomplete
      split
      · exact ⟨s, rfl⟩
      · rw [complete_iff, ← seqStep_eq_none_iff] at hcomplete
        obtain ⟨c, hc⟩ := Option.ne_none_iff_exists'.1 hcomplete
        rw [seqAgent_of_some hc]
        exact ih _

/-- Settles O34: each SEQ step that is not held leaves fewer steps, of which there are at most six. -/
theorem txEndsInSixSteps : Obligations.TxEndsInSixSteps := by
  refine ⟨fun s between hbusy => ⟨fun t => ?_, runSteps_nil_next 6 s⟩, fun s t x rest hs hbusy hstep => ⟨?_, ?_⟩,
    fun b => stepsLeft_le_six b.ph⟩
  · exact runSteps_ends (stepsLeft_le_six _) fun hhalt => by rw [hhalt] at hbusy; cases hbusy
  · exact move_stepsLeft (step_move_cons hs hstep) hbusy
  · rintro rfl hheld
    have hseq : s.blk.seqStep = some t.blk :=
      seqStep_of_seqAgent (s := { s with inputs := rest }) ((step_cons hs).symm.trans hstep)
    exact (seqStep_held_or_shorter hseq).resolve_left (by simp [hheld])

/-! ### Sending all slots -/

/-- The bus engine starts the slot it selects and sends it (R165, R166). -/
def Block.sendNext (b : Block) : Block := b.bstart.bdone

/-- No slot is in flight or about to be aborted, and the age bits are in order. -/
structure Block.Waiting (b : Block) : Prop where
  ages : b.age.acyclic
  slots : ∀ i, (b.slot i).st = .empty ∨ (b.slot i).eligible = true

/-- How many slots hold a frame. -/
def Block.loadedSlots (b : Block) : Nat := slots.countP fun i => (b.slot i).txrq

theorem loadedSlots_eq_zero_iff (b : Block) : b.loadedSlots = 0 ↔ ∀ i, (b.slot i).st = .empty := by
  rw [Block.loadedSlots, List.countP_eq_zero]
  simp [mem_slots, Mailbox.txrq]

theorem outranks_congr {b c : Block} (hcontent : ∀ i, (c.slot i).content = (b.slot i).content) (hage : c.age = b.age)
    (i j : Slot) : c.outranks i j = b.outranks i j := by
  simp only [Block.outranks, hcontent, hage]

/-- Sending a frame changes no identifier and no age, so the order of the slots stays. -/
theorem outranks_sendNext (b : Block) (i j : Slot) : b.sendNext.outranks i j = b.outranks i j := by
  have hstart : Move .lowest (.bus 0) b b.bstart := .bstart b
  have hdone : Move .lowest (.bus 1) b.bstart b.sendNext := .bdone b.bstart
  have hframe := slotsOnly_trans (slotsOnly_of_move hstart rfl) (slotsOnly_of_move hdone rfl)
  have hage : b.sendNext.age = b.age := (congrArg Block.age hframe :)
  refine outranks_congr (fun k => ?_) hage i j
  rw [(agentSlot_of_move hdone rfl k).content_eq, (agentSlot_of_move hstart rfl k).content_eq]

theorem waiting_of_inv {b : Block} (h : b.Inv) (hbusy : b.ph.busy = false) (hfree : ∀ i, (b.slot i).st ≠ .inflight) :
    b.Waiting := by
  refine ⟨h.tx.ages, fun i => ?_⟩
  have habrq : (b.slot i).abrq = false :=
    abrq_of_not_waiting h.slots (fun hp => by rw [hp] at hbusy; cases hbusy) i
  rw [eligible_iff]
  cases hst : (b.slot i).st with
  | empty => exact .inl rfl
  | pending => exact .inr ⟨rfl, habrq⟩
  | inflight => exact absurd hst (hfree i)

section Waiting

variable {b : Block} (h : b.Waiting)
include h

theorem Block.Waiting.not_inflight (i : Slot) : (b.slot i).st ≠ .inflight := by
  rcases h.slots i with hst | he
  · simp [hst]
  · simp [((eligible_iff _).1 he).1]

theorem Block.Waiting.sel_eq_none_iff : b.sel = none ↔ ∀ i, (b.slot i).st = .empty := by
  rw [Machine.sel_eq_none_iff h.ages]
  constructor
  · rintro (⟨i, hi⟩ | hno) i
    · exact absurd hi (h.not_inflight _)
    · exact (h.slots i).resolve_right (hno i)
  · exact fun hempty => .inr fun i he => by simp [hempty i, eligible_iff] at he

/-- The slot that is started and sent is emptied, and no other changes. -/
theorem Block.Waiting.slot_sendNext {i : Slot} (hsel : b.sel = some i) (j : Slot) :
    b.sendNext.slot j = if j = i then ({ b.slot i with st := .inflight } : Mailbox).emptied true else b.slot j := by
  have hinflight : (b.setSlot i { b.slot i with st := .inflight }).inflight = some i := by
    refine inflight_eq_some (by simp) fun k hk => ?_
    by_contra hne
    rw [slot_setSlot, if_neg hne] at hk
    exact h.not_inflight k hk
  rw [Block.sendNext, bstart_of_sel hsel, bdone_of_inflight hinflight, slot_setSlot, slot_setSlot, slot_setSlot,
    if_pos rfl]
  split <;> rfl

theorem Block.Waiting.sendNext_of_sel_none (hsel : b.sel = none) : b.sendNext = b := by
  rw [Block.sendNext, bstart_of_sel_none hsel, bdone_of_inflight_none ((inflight_eq_none_iff b).2 h.not_inflight)]

theorem Block.Waiting.sendNext : b.sendNext.Waiting := by
  cases hsel : b.sel with
  | none => rwa [h.sendNext_of_sel_none hsel]
  | some i =>
    have hframe := slotsOnly_trans (slotsOnly_bstart b) (slotsOnly_bdone b.bstart)
    refine ⟨?_, fun j => ?_⟩
    · rw [show b.sendNext.age = b.age from (congrArg Block.age hframe :)]
      exact h.ages
    · rw [h.slot_sendNext hsel]
      split
      · exact .inl rfl
      · exact h.slots j

/-- One slot fewer holds a frame, as long as there is one. -/
theorem Block.Waiting.loadedSlots_sendNext : b.sendNext.loadedSlots = b.loadedSlots - 1 := by
  cases hsel : b.sel with
  | none => rw [h.sendNext_of_sel_none hsel, (loadedSlots_eq_zero_iff b).2 (h.sel_eq_none_iff.1 hsel)]
  | some i =>
    have hst : (b.slot i).st = .pending := (st_of_sel hsel).1
    have hslot := h.slot_sendNext hsel
    simp only [Block.loadedSlots, Machine.slots, List.countP_cons, List.countP_nil, Mailbox.txrq, hslot]
    cases i with
    | s0 => simp [show b.mb0.st = .pending from hst]
    | s1 => simp [show b.mb1.st = .pending from hst]
    | s2 => simp [show b.mb2.st = .pending from hst]; omega

end Waiting

theorem waiting_iterate {b : Block} (h : b.Waiting) (n : Nat) :
    (Block.sendNext^[n] b).Waiting ∧ (Block.sendNext^[n] b).loadedSlots = b.loadedSlots - n ∧
      ∀ i j, (Block.sendNext^[n] b).outranks i j = b.outranks i j := by
  induction n with
  | zero => exact ⟨h, rfl, fun _ _ => rfl⟩
  | succ n ih =>
    obtain ⟨hwaiting, hcount, hout⟩ := ih
    rw [Function.iterate_succ_apply']
    refine ⟨hwaiting.sendNext, ?_, fun i j => (outranks_sendNext _ i j).trans (hout i j)⟩
    rw [hwaiting.loadedSlots_sendNext, hcount]
    omega

/-- Settles O59: sending keeps the order of the slots and empties the first of those that hold a frame, of which there
are at most three. -/
theorem framesLeaveInPriorityOrder : Obligations.FramesLeaveInPriorityOrder := by
  intro b hinv hbusy hfree
  have hiter := waiting_iterate (waiting_of_inv hinv hbusy hfree)
  refine ⟨fun n i hsel j hj hst => ?_, fun n => (hiter n).1.sel_eq_none_iff, ?_⟩
  · obtain ⟨hwaiting, -, hout⟩ := hiter n
    have hfirst := (outranks_of_sel hsel).2 j hj ((hwaiting.slots j).resolve_left hst)
    exact ⟨hfirst, (hout i j).symm.trans hfirst⟩
  · have hle : b.loadedSlots ≤ 3 := List.countP_le_length
    obtain ⟨-, hcount, -⟩ := hiter 3
    have hzero : (Block.sendNext^[3] b).loadedSlots = 0 := by omega
    exact (loadedSlots_eq_zero_iff _).1 hzero

end Sys2Proof.Machine
